-- ==== Sys2Proof/Word.lean ====
section
/-! DEFINITION. The word types of the r-chip8 CORE block (spec/10_state.md R20, spec/00_scope.md R7: V_WIDTH, I_WIDTH,
PC_WIDTH, OPCODE_WIDTH). Every value of the machine is an unsigned number (R10). -/

namespace Sys2Proof

/-- A byte: a V register, a memory byte, an immediate `nn` (R21, R33, R76). -/
abbrev Byte := BitVec 8

/-- A 16-bit word: I, pc, a stack entry, an opcode (R25, R26, R28, R75). -/
abbrev Word := BitVec 16

/-- A register index `x` or `y`: 4 bits, so every value is a valid index (R78). -/
abbrev RegIdx := BitVec 4

/-- A 12-bit address field `nnn` (R76). -/
abbrev Addr12 := BitVec 12

/-- A 4-bit sprite height `n` (R76). -/
abbrev Height := BitVec 4

end Sys2Proof
end

