-- ==== Sys2Proof/Config.lean ====
section
/-! DEFINITION. What an implementation of the block may choose (the alternatives of spec/00_scope.md R7; the values this
hardware takes stand in Machine/Params.lean), and the model's one free value. -/

namespace Sys2Proof

/-- The two readings of an arithmetic result that does not fit (R7 `ALU_OVERFLOW` and `I_OVERFLOW`; D9, D10). -/
inductive OverflowRule where
  | fault   -- the instruction raises AluOverflow or IndexOverflow
  | wrap    -- the result is reduced modulo 2^8 or 2^16
deriving DecidableEq, Repr

/-- The write order of VF and V[x] in `8xyE` (R7 `SHL_ORDER`; D13). -/
inductive ShlOrder where
  | flagFirst
  | resultFirst
deriving DecidableEq, Repr

/-- What `Fx15` adds to I (R7 `FX15_ADDEND`; D11). -/
inductive Fx15Addend where
  | nibble     -- the literal x
  | register   -- V[x]
deriving DecidableEq, Repr

/-- DESIGN CHOICE (log entry 2). The random oracle RAND of spec/42_alu.md R169: `randByte k` is the byte of draw number `k`.
It has no body, so nothing is known of any draw and successive draws are unrelated: a claim holds for every draw. Safe. -/
opaque Config.randByte : Nat → Byte

end Sys2Proof
end

