-- ==== Sys2Proof/Machine/Params.lean ====
section
/-! DEFINITION. The named parameters of spec/00_scope.md R7, each at the value this hardware takes (log entry 3). RESET_V and
RESET_I are arguments of `construct` (Machine/State.lean, Machine/Transactions.lean); RAND is `Config.randByte`. -/

namespace Sys2Proof.Machine

/-- `MEM_SIZE`: bytes of memory, addresses 0..4095 (R7, R50). -/
abbrev memSize : Nat := 4096

/-- `LOAD_ADDR`: address of the first program byte and the reset pc (R7, R57). -/
abbrev loadAddr : Nat := 0x200

/-- `NUM_V`: general registers (R7, R21). -/
abbrev numV : Nat := 16

/-- `STACK_ENTRIES`: return-address entries (R7, R28). -/
abbrev stackEntries : Nat := 16

/-- `STACK_MAX_DEPTH`: most return addresses outstanding at once (R7, R28, D8; the alternative is 16). -/
abbrev stackMaxDepth : Nat := 15

/-- `FB_W`: framebuffer columns (R7, R31). -/
abbrev fbW : Nat := 64

/-- `FB_H`: framebuffer rows (R7, R31). -/
abbrev fbH : Nat := 32

/-- `GLYPH_BYTES`: the multiplier of `Fx29` (R7, R193). -/
abbrev glyphBytes : Nat := 5

/-- `ALU_OVERFLOW` (R7, D9): what `8xy4` does on a carry and `8xy5` on a borrow. -/
def aluOverflow : OverflowRule := .fault

/-- `I_OVERFLOW` (R7, D10): what an I sum above 0xFFFF does. -/
def iOverflow : OverflowRule := .fault

/-- `SHL_ORDER` (R7, D13): the write order of `8xyE`. -/
def shlOrder : ShlOrder := .flagFirst

/-- `FX15_ADDEND` (R7, D11): what `Fx15` adds to I. -/
def fx15Addend : Fx15Addend := .nibble

end Sys2Proof.Machine
end

