-- ==== Sys2Proof/Machine/State.lean ====
section
/-! DEFINITION. The architectural state (spec/10_state.md R20: "No other state exists"), the fault causes
(spec/60_exceptions.md R220), the refusals, and the state after reset (spec/10_state.md R37). -/

namespace Sys2Proof.Machine

/-- Memory (R33): the bytes that differ from `unlistedByte`, by strictly rising address. -/
abbrev Memory := List Host.Cell

/-- What an address that is not listed reads as: the zero of R36 ("Memory is zero except for the program"). -/
abbrev unlistedByte : Byte := 0x00#8

/-- The canonical form of memory: strictly rising addresses, all inside [0, MEM_SIZE) (R50), none listed with the value an
unlisted address has. -/
abbrev Memory.wf (m : Memory) : Prop :=
  m.Pairwise (fun c d => c.1 < d.1) ∧ ∀ c ∈ m, c.1 < memSize ∧ c.2 ≠ unlistedByte

/-- The framebuffer `FB[col][row]` (R31). -/
abbrev Framebuffer := Vector (Vector Bool fbH) fbW

/-- The fault causes with the info each records (R220). `pc` is always the address of the faulting instruction's first byte.
Each is raised by `takeFault` (a next state with FAULT latched, R228), and answered as the outcome `.fault` by every later
step of the Faulted block. -/
inductive Fault where
  /-- Code 1. Raised by `step` at decode: the word matches no row of the table (R224). Safe: where the decoder is stricter
  than the source's code (D4, D5) the model stops and the hardware goes on. -/
  | unrecognizedOpcode (pc : Word) (opcode : Word)
  /-- Code 2. Raised by `step` at fetch: pc + 1 >= MEM_SIZE (R223). Safe: the spec's own fault. -/
  | fetchOutOfRange (pc : Word)
  /-- Code 3. Raised by `Dxyn` and `Fx65`: a read address >= MEM_SIZE, the lowest such address recorded (R221). Safe. -/
  | memReadOutOfRange (pc : Word) (addr : Nat)
  /-- Code 4. Raised by `Fx55`: a write address >= MEM_SIZE, the lowest such address recorded (R222). Safe. -/
  | memWriteOutOfRange (pc : Word) (addr : Nat)
  /-- Code 5. Raised by `2nnn` with SP = STACK_MAX_DEPTH (R225). Safe (D8). -/
  | stackOverflow (pc : Word)
  /-- Code 6. Raised by `00EE` with SP = 0 (R226). Safe (D8). -/
  | stackUnderflow (pc : Word)
  /-- Code 7. Raised by `8xy4` on a carry and `8xy5` on a borrow, with ALU_OVERFLOW = Fault (R227). Safe (D9). -/
  | aluOverflow (pc : Word) (opcode : Word)
  /-- Code 8. Raised by `Fx15`, `Fx1E` and `Fx29` on a sum above 0xFFFF, with I_OVERFLOW = Fault (R227). Safe (D10). -/
  | indexOverflow (pc : Word) (opcode : Word)
deriving DecidableEq, Repr

/-- The address recorded as `pc` in a fault's info (R220). -/
def Fault.pc : Fault → Word
  | .unrecognizedOpcode p _ => p
  | .fetchOutOfRange p => p
  | .memReadOutOfRange p _ => p
  | .memWriteOutOfRange p _ => p
  | .stackOverflow p => p
  | .stackUnderflow p => p
  | .aluOverflow p _ => p
  | .indexOverflow p _ => p

/-- The cause's code (R220, D7). -/
def Fault.code : Fault → Nat
  | .unrecognizedOpcode _ _ => 1
  | .fetchOutOfRange _ => 2
  | .memReadOutOfRange _ _ => 3
  | .memWriteOutOfRange _ _ => 4
  | .stackOverflow _ => 5
  | .stackUnderflow _ => 6
  | .aluOverflow _ _ => 7
  | .indexOverflow _ _ => 8

/-- What is refused. No step refuses anything. -/
inductive Refusal where
  /-- An instruction with no meaning yet, by its mnemonic; no arm of `exec` answers with it. Safe. -/
  | notModelled (mnemonic : String)
  /-- Answered by `construct` for an image longer than MEM_SIZE - LOAD_ADDR: no block is constructed (R252). Safe (D16). -/
  | imageTooLong
deriving DecidableEq, Repr

/-- The architectural state (R20), and the model's own draw counter. -/
structure State where
  /-- V0..VF (R21); VF is `v[15]` (R24). -/
  v : Vector Byte numV
  /-- The index register I (R25). -/
  i : Word
  /-- The program counter (R26). Between steps it is the address of the next opcode. -/
  pc : Word
  /-- STACK[0..15], the return addresses (R28). -/
  stack : Vector Word stackEntries
  /-- SP, the number of return addresses outstanding (R28): 0..15, and 16 only under STACK_MAX_DEPTH = 16 (log entry 6). -/
  sp : Fin (stackEntries + 1)
  /-- FB[col][row] (R31). -/
  fb : Framebuffer
  /-- DIRTY (R32). -/
  dirty : Bool
  /-- MEM (R33). -/
  mem : Memory
  /-- The fault latch FAULT (R34, R228). -/
  fault : Option Fault
  /-- The model's own field, not the spec's (log entry 2): how many RAND draws were taken; the next draw is
  `Config.randByte draws`. -/
  draws : Nat
deriving DecidableEq, Repr

/-- What the spec leaves open or unspecified at reset: RESET_V, RESET_I (R37, OPEN), the stack's contents (R37, unspecified),
and the model's own draw counter. -/
structure ResetParams where
  v : Vector Byte numV
  i : Word
  stack : Vector Word stackEntries
  draws : Nat
deriving DecidableEq, Repr

/-- DESIGN CHOICE (log entries 1 and 2), unsafe: zero for everything the spec leaves open at reset. Statements about reset
quantify over every `ResetParams` instead. -/
def ResetParams.zero : ResetParams :=
  { v := Vector.replicate numV 0x00#8, i := 0x0000#16, stack := Vector.replicate stackEntries 0x0000#16, draws := 0 }

/-- The block constructed from an image of no bytes (R251, R252): pc at LOAD_ADDR, an empty stack, a blank clean framebuffer,
zero memory, no fault (R37). -/
def State.blank (p : ResetParams) : State :=
  { v := p.v, i := p.i, pc := BitVec.ofNat 16 loadAddr, stack := p.stack, sp := 0,
    fb := Vector.replicate fbW (Vector.replicate fbH false), dirty := false, mem := [], fault := none, draws := p.draws }

/-- The machine right after reset with no program loaded (R251 for the empty image; log entries 1 and 4). -/
def State.reset : State := State.blank ResetParams.zero

end Sys2Proof.Machine
end

