-- ==== Sys2Proof/Machine/Ops.lean ====
section
/-! DEFINITION. The named operations over the state: registers, memory, stack, framebuffer, the program counter's advance,
and taking a fault (spec/00_scope.md R11 to R13). -/

namespace Sys2Proof.Machine

/-- What `exec` and `step` answer. -/
abbrev Result := Host.Outcome State Fault Refusal

/-! Registers (R21): no register is hard-wired, so a read gives the last write. -/

/-- `V[x]` over the register file alone. -/
def readReg (v : Vector Byte numV) (x : RegIdx) : Byte := v[x.toNat]'x.isLt

/-- `V[x] <- b` over the register file alone. -/
def writeReg (v : Vector Byte numV) (x : RegIdx) (b : Byte) : Vector Byte numV := v.set x.toNat b x.isLt

/-- `V[x]` (R11). -/
def State.getV (s : State) (x : RegIdx) : Byte := readReg s.v x

/-- `V[x] <- b` (R11). -/
def State.setV (s : State) (x : RegIdx) (b : Byte) : State := { s with v := writeReg s.v x b }

/-- The index of VF, `V[15]` (R21, R24). -/
def vF : RegIdx := 0xF#4

/-- The index of V0, the offset register of `Bnnn` (R109). -/
def v0 : RegIdx := 0x0#4

/-- `I <- w` (R11). -/
def State.setI (s : State) (w : Word) : State := { s with i := w }

/-- `pc <- target` (R11), unchecked (R111). -/
def State.setPc (s : State) (target : Word) : State := { s with pc := target }

/-- The advance before execution, `pc <- pc0 + 2` (R73). `exec` gets the state of the step's start, so each meaning's first
act is this; a fault is taken from the state before it. -/
def State.advance (s : State) : State := s.setPc (s.pc + 2#16)

/-- `Skip()`: `pc <- pc + 2`, on an already advanced pc (R103). -/
def State.skip (s : State) : State := s.setPc (s.pc + 2#16)

/-- `Skip()` if the condition holds (R105 to R108). -/
def State.skipIf (s : State) (c : Bool) : State := if c then s.skip else s

/-! Memory (R12, R50 to R56). -/

/-- The byte at an address (R12 `MemRead(addr, 1)`); the callers check the range. -/
def Memory.read : Memory → Nat → Byte
  | [], _ => unlistedByte
  | c :: m, a => if c.1 = a then c.2 else Memory.read m a

/-- Store a byte (R12 `MemWrite(addr, 1, v)`), keeping the canonical form; the callers check the range. -/
def Memory.write : Memory → Nat → Byte → Memory
  | [], a, b => if b = unlistedByte then [] else [(a, b)]
  | c :: m, a, b =>
    if a < c.1 then (if b = unlistedByte then c :: m else (a, b) :: c :: m)
    else if a = c.1 then (if b = unlistedByte then m else (a, b) :: m)
    else c :: Memory.write m a b

/-- The lowest address of the block `base .. base + count - 1` outside [0, MEM_SIZE), if there is one (R53; the check of
R133, R194 and R195, and the info of R221 and R222). -/
def firstOutOfRange (base count : Nat) : Option Nat :=
  ((List.range count).map (fun k => base + k)).find? (fun a => decide (memSize ≤ a))

/-- Store V0..V(count-1) at `base`, ascending (R194). -/
def storeRegs (v : Vector Byte numV) (base : Nat) : Nat → Memory → Memory
  | 0, m => m
  | k + 1, m => (storeRegs v base k m).write (base + k) (readReg v (BitVec.ofNat 4 k))

/-- Load V0..V(count-1) from `base`, ascending (R195). -/
def loadRegs (m : Memory) (base : Nat) : Nat → Vector Byte numV → Vector Byte numV
  | 0, v => v
  | k + 1, v => writeReg (loadRegs m base k v) (BitVec.ofNat 4 k) (m.read (base + k))

/-- Copy an image to memory from `base` on, "loaded verbatim" (R245, R251). -/
def loadImage (base : Nat) : List Byte → Memory → Memory
  | [], m => m
  | b :: bs, m => loadImage (base + 1) bs (m.write base b)

/-- The two bytes at pc and pc + 1, if both addresses exist (R72). -/
def fetch (s : State) : Option (List Byte) :=
  if s.pc.toNat + 1 < memSize then some [s.mem.read s.pc.toNat, s.mem.read (s.pc.toNat + 1)] else none

/-! The return-address stack (R28). -/

/-- `STACK[SP] <- w; SP <- SP + 1` (R104); the caller checks that SP is below STACK_MAX_DEPTH. -/
def State.push (s : State) (w : Word) : State :=
  { s with stack := s.stack.setIfInBounds s.sp.val w, sp := Fin.ofNat (stackEntries + 1) (s.sp.val + 1) }

/-- `STACK[SP - 1]`, the most recent return address (R28), for SP > 0. -/
def State.top (s : State) : Word := s.stack[s.sp.val - 1]'(by have := s.sp.isLt; simp only [stackEntries] at *; omega)

/-- `SP <- SP - 1`, leaving the entry as it is (R101). -/
def State.drop (s : State) : State := { s with sp := ⟨s.sp.val - 1, by have := s.sp.isLt; omega⟩ }

/-! The framebuffer (R31, R135). -/

/-- `FB[col][row]`. -/
def Framebuffer.pixel (fb : Framebuffer) (col : Fin fbW) (row : Fin fbH) : Bool := (fb[col.val]'col.isLt)[row.val]'row.isLt

/-- `FB[col][row] <- b`. -/
def Framebuffer.setPixel (fb : Framebuffer) (col : Fin fbW) (row : Fin fbH) (b : Bool) : Framebuffer :=
  fb.set col.val ((fb[col.val]'col.isLt).set row.val b row.isLt) col.isLt

/-- Every pixel false (R130). -/
def clearFb : Framebuffer := Vector.replicate fbW (Vector.replicate fbH false)

/-- A column modulo FB_W (R134). -/
def wrapCol (c : Nat) : Fin fbW := ⟨c % fbW, Nat.mod_lt _ (by decide)⟩

/-- A row modulo FB_H (R134). -/
def wrapRow (r : Nat) : Fin fbH := ⟨r % fbH, Nat.mod_lt _ (by decide)⟩

/-- Bit of column c of a sprite byte, most significant first: `(b >> (7 - c)) & 1` (R132). -/
def spriteBit (b : Byte) (c : Nat) : Bool := b.getLsbD (7 - c)

/-- The pixel-toggle contract (R135): the new framebuffer, and whether the toggle was a flip. -/
def toggle (fb : Framebuffer) (col : Fin fbW) (row : Fin fbH) (bit : Bool) : Framebuffer × Bool :=
  if (fb.pixel col row ^^ bit) = fb.pixel col row then (fb, false)
  else (fb.setPixel col row (fb.pixel col row ^^ bit), true)

/-- Toggle one sprite bit at column c of a row that lies at framebuffer row `row` (R133's inner loop), or-ing the flip. -/
def drawBit (cx : Nat) (row : Fin fbH) (b : Byte) (acc : Framebuffer × Bool) (c : Nat) : Framebuffer × Bool :=
  match toggle acc.1 (wrapCol (cx + c)) row (spriteBit b c) with
  | (fb, f) => (fb, acc.2 || f)

/-- Toggle the 8 bits of sprite row r (R133). -/
def drawRow (m : Memory) (base cx cy : Nat) (acc : Framebuffer × Bool) (r : Nat) : Framebuffer × Bool :=
  (List.range 8).foldl (drawBit cx (wrapRow (cy + r)) (m.read (base + r))) acc

/-- The XOR-blit of a sprite of n rows (R133): the new framebuffer, and whether any toggle flipped. -/
def drawSprite (m : Memory) (base cx cy n : Nat) (fb : Framebuffer) : Framebuffer × Bool :=
  (List.range n).foldl (drawRow m base cx cy) (fb, false)

/-! Taking a fault (R13, R71, R228): the only trap the block has. There is no return from it (R232); only a new construction
leaves the Faulted condition (R228, R250). -/

/-- `raise Fault(cause, info)`, on the state of the step's start: FAULT is latched and everything else is as it was before the
step, so that none of the step's writes takes effect. -/
def takeFault (f : Fault) (s : State) : Result := .next { s with fault := some f }

end Sys2Proof.Machine
end

