-- ==== Sys2Proof/Machine/Flags.lean ====
section
/-! DEFINITION. The two flag values VF is given (spec/10_state.md R24), and the sums and differences whose overflow the
parameters ALU_OVERFLOW and I_OVERFLOW decide (spec/42_alu.md R165, R166, R170; spec/43_index_memory.md R196). -/

namespace Sys2Proof.Machine

/-- The flag of `8xyE`: bit 7 of V[y], as 0 or 1 (R167). -/
def shiftFlag (b : Byte) : Byte := b >>> 7

/-- The flag of `Dxyn`: 1 if any pixel flipped and 0 otherwise (R138). -/
def drawFlag (flipped : Bool) : Byte := if flipped then 0x01#8 else 0x00#8

/-- The sum of `8xy4` (R165): `none` where it raises AluOverflow. -/
def aluSum (rule : OverflowRule) (a b : Byte) : Option Byte :=
  if a.toNat + b.toNat ≤ 255 then some (BitVec.ofNat 8 (a.toNat + b.toNat))
  else match rule with
    | .fault => none
    | .wrap => some (BitVec.ofNat 8 (a.toNat + b.toNat - 256))

/-- The difference of `8xy5` (R166): `none` where it raises AluOverflow. -/
def aluDiff (rule : OverflowRule) (a b : Byte) : Option Byte :=
  if b.toNat ≤ a.toNat then some (BitVec.ofNat 8 (a.toNat - b.toNat))
  else match rule with
    | .fault => none
    | .wrap => some (BitVec.ofNat 8 (a.toNat + 256 - b.toNat))

/-- `IAdd`'s sum (R196): `none` where it raises IndexOverflow. -/
def indexSum (rule : OverflowRule) (i : Word) (k : Nat) : Option Word :=
  if i.toNat + k ≤ 0xFFFF then some (BitVec.ofNat 16 (i.toNat + k))
  else match rule with
    | .fault => none
    | .wrap => some (BitVec.ofNat 16 (i.toNat + k - 0x10000))

end Sys2Proof.Machine
end

