-- ==== Sys2Proof/Syntax.lean ====
section
/-! DEFINITION. The instructions: one constructor per row of spec/opcode_table.json, in the order of spec/30_encoding.md R80.
A field has exactly the width R76 gives it, so no field can be out of range (R78). -/

namespace Sys2Proof

/-- The 26 recognised instructions (R80). Each docstring names the pattern, the mnemonic of R90 and the rule. -/
inductive Instr where
  /-- `0000` SYS 0x000 (R100). -/
  | sys
  /-- `00E0` CLS (R130). -/
  | cls
  /-- `00EE` RET (R101). -/
  | ret
  /-- `1nnn` JP nnn (R102). -/
  | jp (nnn : Addr12)
  /-- `2nnn` CALL nnn (R104). -/
  | call (nnn : Addr12)
  /-- `3xnn` SE Vx, nn (R105). -/
  | seImm (x : RegIdx) (nn : Byte)
  /-- `4xnn` SNE Vx, nn (R106). -/
  | sneImm (x : RegIdx) (nn : Byte)
  /-- `5xy0` SE Vx, Vy (R107). -/
  | seReg (x y : RegIdx)
  /-- `6xnn` LD Vx, nn (R160). -/
  | ldImm (x : RegIdx) (nn : Byte)
  /-- `7xnn` ADD Vx, nn (R161). -/
  | addImm (x : RegIdx) (nn : Byte)
  /-- `8xy0` LD Vx, Vy (R162). -/
  | ldReg (x y : RegIdx)
  /-- `8xy2` AND Vx, Vy (R163). -/
  | andReg (x y : RegIdx)
  /-- `8xy3` XOR Vx, Vy (R164). -/
  | xorReg (x y : RegIdx)
  /-- `8xy4` ADD Vx, Vy (R165). -/
  | addReg (x y : RegIdx)
  /-- `8xy5` SUB Vx, Vy (R166). -/
  | subReg (x y : RegIdx)
  /-- `8xyE` SHL Vx, Vy (R167). -/
  | shl (x y : RegIdx)
  /-- `9xy0` SNE Vx, Vy (R108). -/
  | sneReg (x y : RegIdx)
  /-- `Annn` LD I, nnn (R190). -/
  | ldI (nnn : Addr12)
  /-- `Bnnn` JP V0, nnn (R109). -/
  | jpV0 (nnn : Addr12)
  /-- `Cxnn` RND Vx, nn (R169). -/
  | rnd (x : RegIdx) (nn : Byte)
  /-- `Dxyn` DRW Vx, Vy, n (R133). -/
  | drw (x y : RegIdx) (n : Height)
  /-- `Fx15` ADD I, #x (R191); x is a number here, not a register index. -/
  | addILit (x : RegIdx)
  /-- `Fx1E` ADD I, Vx (R192). -/
  | addIReg (x : RegIdx)
  /-- `Fx29` LD F, Vx (R193). -/
  | ldF (x : RegIdx)
  /-- `Fx55` LD [I], Vx (R194); x is the count of registers stored. -/
  | store (x : RegIdx)
  /-- `Fx65` LD Vx, [I] (R195); x is the count of registers loaded. -/
  | load (x : RegIdx)
deriving DecidableEq, Repr

end Sys2Proof
end

