-- ==== Sys2Proof/WellFormed.lean ====
section
/-! DEFINITION. What is well formed among the RAW inputs of the block: a 16-bit opcode word (it matches a row of the opcode
table, spec/30_encoding.md R80) and a program image (it fits above LOAD_ADDR, spec/70_reset_and_hazards.md R252).
An `Instr` needs no check of its own: its fields have exactly the widths of R76, and every 4-bit value is a valid register
index (R78), so an ill-formed instruction cannot be written down. -/

namespace Sys2Proof

/-- One row of the opcode table: `op` matches when `op & mask = value` (R80). -/
structure Row where
  mask  : Word
  value : Word
deriving DecidableEq, Repr

/-- The word matches the row (R80, R81: every literal digit of the pattern is compared). -/
def Row.matches (r : Row) (op : Word) : Bool := op &&& r.mask == r.value

/-- The mask and match columns of R80, rows 1 to 13. -/
def opcodeRowsLow : List Row :=
  [⟨0xFFFF#16, 0x0000#16⟩, ⟨0xFFFF#16, 0x00E0#16⟩, ⟨0xFFFF#16, 0x00EE#16⟩, ⟨0xF000#16, 0x1000#16⟩, ⟨0xF000#16, 0x2000#16⟩,
   ⟨0xF000#16, 0x3000#16⟩, ⟨0xF000#16, 0x4000#16⟩, ⟨0xF00F#16, 0x5000#16⟩, ⟨0xF000#16, 0x6000#16⟩, ⟨0xF000#16, 0x7000#16⟩,
   ⟨0xF00F#16, 0x8000#16⟩, ⟨0xF00F#16, 0x8002#16⟩, ⟨0xF00F#16, 0x8003#16⟩]

/-- The mask and match columns of R80, rows 14 to 26. -/
def opcodeRowsHigh : List Row :=
  [⟨0xF00F#16, 0x8004#16⟩, ⟨0xF00F#16, 0x8005#16⟩, ⟨0xF00F#16, 0x800E#16⟩, ⟨0xF00F#16, 0x9000#16⟩, ⟨0xF000#16, 0xA000#16⟩,
   ⟨0xF000#16, 0xB000#16⟩, ⟨0xF000#16, 0xC000#16⟩, ⟨0xF000#16, 0xD000#16⟩, ⟨0xF0FF#16, 0xF015#16⟩, ⟨0xF0FF#16, 0xF01E#16⟩,
   ⟨0xF0FF#16, 0xF029#16⟩, ⟨0xF0FF#16, 0xF055#16⟩, ⟨0xF0FF#16, 0xF065#16⟩]

/-- The whole opcode table of R80, in its order. -/
def opcodeTable : List Row := opcodeRowsLow ++ opcodeRowsHigh

/-- A word is well formed when some row matches it; every other word is unrecognised (R84). Written from the table, not from
the decoder. -/
def wellFormedWord (op : Word) : Bool := opcodeTable.any (fun r => r.matches op)

/-- The row of R80 that a constructor of `Instr` stands for. -/
def Instr.row : Instr → Row
  | .sys        => ⟨0xFFFF#16, 0x0000#16⟩
  | .cls        => ⟨0xFFFF#16, 0x00E0#16⟩
  | .ret        => ⟨0xFFFF#16, 0x00EE#16⟩
  | .jp _       => ⟨0xF000#16, 0x1000#16⟩
  | .call _     => ⟨0xF000#16, 0x2000#16⟩
  | .seImm _ _  => ⟨0xF000#16, 0x3000#16⟩
  | .sneImm _ _ => ⟨0xF000#16, 0x4000#16⟩
  | .seReg _ _  => ⟨0xF00F#16, 0x5000#16⟩
  | .ldImm _ _  => ⟨0xF000#16, 0x6000#16⟩
  | .addImm _ _ => ⟨0xF000#16, 0x7000#16⟩
  | .ldReg _ _  => ⟨0xF00F#16, 0x8000#16⟩
  | .andReg _ _ => ⟨0xF00F#16, 0x8002#16⟩
  | .xorReg _ _ => ⟨0xF00F#16, 0x8003#16⟩
  | .addReg _ _ => ⟨0xF00F#16, 0x8004#16⟩
  | .subReg _ _ => ⟨0xF00F#16, 0x8005#16⟩
  | .shl _ _    => ⟨0xF00F#16, 0x800E#16⟩
  | .sneReg _ _ => ⟨0xF00F#16, 0x9000#16⟩
  | .ldI _      => ⟨0xF000#16, 0xA000#16⟩
  | .jpV0 _     => ⟨0xF000#16, 0xB000#16⟩
  | .rnd _ _    => ⟨0xF000#16, 0xC000#16⟩
  | .drw _ _ _  => ⟨0xF000#16, 0xD000#16⟩
  | .addILit _  => ⟨0xF0FF#16, 0xF015#16⟩
  | .addIReg _  => ⟨0xF0FF#16, 0xF01E#16⟩
  | .ldF _      => ⟨0xF0FF#16, 0xF029#16⟩
  | .store _    => ⟨0xF0FF#16, 0xF055#16⟩
  | .load _     => ⟨0xF0FF#16, 0xF065#16⟩

/-- A program image is well formed when it fits between LOAD_ADDR and the end of memory (R252). -/
def wellFormedImage (img : List Byte) : Bool := decide (img.length ≤ Machine.memSize - Machine.loadAddr)

end Sys2Proof
end

