-- ==== Sys2Proof/Decode.lean ====
section
/-! DEFINITION. The decoder and, after it, the encoder (spec/30_encoding.md R70 to R88), and the host's view of the decoder,
`decodeTableWord`. -/

namespace Sys2Proof

/-- The first nibble, op[15:12], which selects the family (R74). -/
def fieldOp (op : Word) : BitVec 4 := op.extractLsb' 12 4

/-- The field x = op[11:8] (R76). -/
def fieldX (op : Word) : RegIdx := op.extractLsb' 8 4

/-- The field y = op[7:4] (R76). -/
def fieldY (op : Word) : RegIdx := op.extractLsb' 4 4

/-- The field n = op[3:0] (R76), the selecting literal in the families 5, 8 and 9 (R79). -/
def fieldN (op : Word) : BitVec 4 := op.extractLsb' 0 4

/-- The field nn = op[7:0] (R76), the selecting literal in the family F (R79). -/
def fieldNN (op : Word) : Byte := op.extractLsb' 0 8

/-- The field nnn = op[11:0] (R76). -/
def fieldNNN (op : Word) : Addr12 := op.extractLsb' 0 12

/-- The `0` family: only three words are recognised (R82). -/
def decodeFamily0 (op : Word) : Option Instr :=
  if op = 0x0000#16 then some .sys
  else if op = 0x00E0#16 then some .cls
  else if op = 0x00EE#16 then some .ret
  else none

/-- The families `5` and `9`: the low nibble must be 0 (R79, R81). -/
def decodeLow0 (op : Word) (i : Instr) : Option Instr := if fieldN op = 0x0#4 then some i else none

/-- The `8` family, selected by the low nibble (R83). -/
def decodeFamily8 (op : Word) : Option Instr :=
  match (fieldN op).toNat with
  | 0x0 => some (.ldReg (fieldX op) (fieldY op))
  | 0x2 => some (.andReg (fieldX op) (fieldY op))
  | 0x3 => some (.xorReg (fieldX op) (fieldY op))
  | 0x4 => some (.addReg (fieldX op) (fieldY op))
  | 0x5 => some (.subReg (fieldX op) (fieldY op))
  | 0xE => some (.shl (fieldX op) (fieldY op))
  | _ => none

/-- The `F` family, selected by op[7:0] (R85). -/
def decodeFamilyF (op : Word) : Option Instr :=
  if fieldNN op = 0x15#8 then some (.addILit (fieldX op))
  else if fieldNN op = 0x1E#8 then some (.addIReg (fieldX op))
  else if fieldNN op = 0x29#8 then some (.ldF (fieldX op))
  else if fieldNN op = 0x55#8 then some (.store (fieldX op))
  else if fieldNN op = 0x65#8 then some (.load (fieldX op))
  else none

/-- Decode one opcode word (R74, R79): `none` is an unrecognised word (R84). -/
def decodeWord (op : Word) : Option Instr :=
  match (fieldOp op).toNat with
  | 0x0 => decodeFamily0 op
  | 0x1 => some (.jp (fieldNNN op))
  | 0x2 => some (.call (fieldNNN op))
  | 0x3 => some (.seImm (fieldX op) (fieldNN op))
  | 0x4 => some (.sneImm (fieldX op) (fieldNN op))
  | 0x5 => decodeLow0 op (.seReg (fieldX op) (fieldY op))
  | 0x6 => some (.ldImm (fieldX op) (fieldNN op))
  | 0x7 => some (.addImm (fieldX op) (fieldNN op))
  | 0x8 => decodeFamily8 op
  | 0x9 => decodeLow0 op (.sneReg (fieldX op) (fieldY op))
  | 0xA => some (.ldI (fieldNNN op))
  | 0xB => some (.jpV0 (fieldNNN op))
  | 0xC => some (.rnd (fieldX op) (fieldNN op))
  | 0xD => some (.drw (fieldX op) (fieldY op) (fieldN op))
  | 0xF => decodeFamilyF op
  | _ => none

/-- The outcome of decoding a byte sequence. -/
inductive Decoded where
  /-- An instruction, and the bytes after it. -/
  | instr (i : Instr) (rest : List Byte)
  /-- The first two bytes make a word with no row in the table (R84). Rejected by name, with the word. -/
  | unrecognized (op : Word)
  /-- Fewer than two bytes: no instruction is that short (R88). -/
  | truncated
deriving DecidableEq, Repr

/-- Decode the first two bytes, big-endian, high byte first (R51, R72); total on any bytes. -/
def decode : List Byte → Decoded
  | hi :: lo :: rest =>
    match decodeWord (hi ++ lo) with
    | some i => .instr i rest
    | none => .unrecognized (hi ++ lo)
  | _ => .truncated

/-- Format A: `o nnn` (R75). -/
def formA (o : BitVec 4) (nnn : Addr12) : Word := o ++ nnn

/-- Formats XB and XF: `o x nn` and `o x ff` (R75). -/
def formXB (o : BitVec 4) (x : RegIdx) (nn : Byte) : Word := o ++ (x ++ nn)

/-- Formats XY and XYN: `o x y f` and `o x y n` (R75). -/
def formXYN (o : BitVec 4) (x y : RegIdx) (n : BitVec 4) : Word := o ++ (x ++ (y ++ n))

/-- The word of an instruction, from the pattern column of R80 and the formats of R75. -/
def encode : Instr → Word
  | .sys         => 0x0000#16
  | .cls         => 0x00E0#16
  | .ret         => 0x00EE#16
  | .jp nnn      => formA 0x1#4 nnn
  | .call nnn    => formA 0x2#4 nnn
  | .seImm x nn  => formXB 0x3#4 x nn
  | .sneImm x nn => formXB 0x4#4 x nn
  | .seReg x y   => formXYN 0x5#4 x y 0x0#4
  | .ldImm x nn  => formXB 0x6#4 x nn
  | .addImm x nn => formXB 0x7#4 x nn
  | .ldReg x y   => formXYN 0x8#4 x y 0x0#4
  | .andReg x y  => formXYN 0x8#4 x y 0x2#4
  | .xorReg x y  => formXYN 0x8#4 x y 0x3#4
  | .addReg x y  => formXYN 0x8#4 x y 0x4#4
  | .subReg x y  => formXYN 0x8#4 x y 0x5#4
  | .shl x y     => formXYN 0x8#4 x y 0xE#4
  | .sneReg x y  => formXYN 0x9#4 x y 0x0#4
  | .ldI nnn     => formA 0xA#4 nnn
  | .jpV0 nnn    => formA 0xB#4 nnn
  | .rnd x nn    => formXB 0xC#4 x nn
  | .drw x y n   => formXYN 0xD#4 x y n
  | .addILit x   => formXB 0xF#4 x 0x15#8
  | .addIReg x   => formXB 0xF#4 x 0x1E#8
  | .ldF x       => formXB 0xF#4 x 0x29#8
  | .store x     => formXB 0xF#4 x 0x55#8
  | .load x      => formXB 0xF#4 x 0x65#8

/-- The high byte of a word, stored at the lower address (R51). -/
def highByte (w : Word) : Byte := w.extractLsb' 8 8

/-- The low byte of a word, stored at the higher address (R51). -/
def lowByte (w : Word) : Byte := w.extractLsb' 0 8

/-- A word as the two bytes it is stored as, lower address first (R51). -/
def wordBytes (w : Word) : List Byte := [highByte w, lowByte w]

/-- The word of the host's number `w` of `nbits` bits: bits at and above `nbits`, and above 15, are zero. Every instruction
is one 16-bit word (R88). -/
def tableWord (nbits w : Nat) : Word := BitVec.ofNat 16 (w % 2 ^ min nbits 16)

/-- The instruction this decoder reads from the word numbered as spec/opcode_table.json numbers it. -/
def decodeTableWord (nbits w : Nat) : Option Instr :=
  match decode (wordBytes (tableWord nbits w)) with
  | .instr i _ => some i
  | .unrecognized _ => none
  | .truncated => none

end Sys2Proof
end

