-- ==== Sys2Proof/Machine/Operands.lean ====
section
/-! DEFINITION. The operand forms: how each field of spec/30_encoding.md R76 is used as a value (R77). Every immediate is
unsigned and zero-extended; none is sign-extended, scaled or shifted. -/

namespace Sys2Proof.Machine

/-- `zext_16(nnn)`: an address field as a pc or I value (R77). -/
def zextAddr (nnn : Addr12) : Word := nnn.setWidth 16

/-- The target of `Bnnn`: `zext_16(nnn + V[0])`, exact, at most 0x10FE (R109). -/
def offsetTarget (nnn : Addr12) (b : Byte) : Word := BitVec.ofNat 16 (nnn.toNat + b.toNat)

/-- The literal x of `Fx15`, or the count x of `Fx55` and `Fx65`: a number 0..15 (R77, R191, R194, R195). -/
def literalX (x : RegIdx) : Nat := x.toNat

/-- The addend of `Fx15` under each reading (R191, D11). -/
def fx15Value (r : Fx15Addend) (x : RegIdx) (s : State) : Nat :=
  match r with
  | .nibble => literalX x
  | .register => (s.getV x).toNat

/-- The glyph offset of `Fx29`, `V[x] * GLYPH_BYTES`, exact (R193). -/
def glyphOffset (b : Byte) : Nat := b.toNat * glyphBytes

end Sys2Proof.Machine
end

