-- ==== Sys2Proof/Machine/Alu.lean ====
section
/-! DEFINITION. The meanings of spec/42_alu.md. None but `8xyE` writes VF as a flag (spec/42_alu.md R170). -/

namespace Sys2Proof.Machine

/-- `6xnn` LD Vx, nn (R160). -/
def execLdImm (x : RegIdx) (nn : Byte) (s : State) : Result := .next (s.advance.setV x nn)

/-- `7xnn` ADD Vx, nn (R161): modulo 256, no carry flag. -/
def execAddImm (x : RegIdx) (nn : Byte) (s : State) : Result := .next (s.advance.setV x (s.getV x + nn))

/-- `8xy0` LD Vx, Vy (R162). -/
def execLdReg (x y : RegIdx) (s : State) : Result := .next (s.advance.setV x (s.getV y))

/-- `8xy2` AND Vx, Vy (R163). -/
def execAndReg (x y : RegIdx) (s : State) : Result := .next (s.advance.setV x (s.getV x &&& s.getV y))

/-- `8xy3` XOR Vx, Vy (R164). -/
def execXorReg (x y : RegIdx) (s : State) : Result := .next (s.advance.setV x (s.getV x ^^^ s.getV y))

/-- Write an ALU result to V[x], or raise AluOverflow with the instruction's word where there is none (R165, R166). -/
def finishAlu (i : Instr) (x : RegIdx) (r : Option Byte) (s : State) : Result :=
  match r with
  | some b => .next (s.advance.setV x b)
  | none => takeFault (.aluOverflow s.pc (encode i)) s

/-- `8xy4` under a given ALU_OVERFLOW (R165). -/
def addRegWith (rule : OverflowRule) (x y : RegIdx) (s : State) : Result :=
  finishAlu (.addReg x y) x (aluSum rule (s.getV x) (s.getV y)) s

/-- `8xy4` ADD Vx, Vy (R165). -/
def execAddReg (x y : RegIdx) (s : State) : Result := addRegWith aluOverflow x y s

/-- `8xy5` under a given ALU_OVERFLOW (R166). -/
def subRegWith (rule : OverflowRule) (x y : RegIdx) (s : State) : Result :=
  finishAlu (.subReg x y) x (aluDiff rule (s.getV x) (s.getV y)) s

/-- `8xy5` SUB Vx, Vy (R166). -/
def execSubReg (x y : RegIdx) (s : State) : Result := subRegWith aluOverflow x y s

/-- `8xyE` under a given SHL_ORDER (R167); the second write sees the first. -/
def shlWith (order : ShlOrder) (x y : RegIdx) (s : State) : State :=
  match order with
  | .flagFirst =>
    let flagged := s.setV vF (shiftFlag (s.getV y))
    flagged.setV x (flagged.getV x <<< 1)
  | .resultFirst =>
    let shifted := s.setV x (s.getV x <<< 1)
    shifted.setV vF (shiftFlag (shifted.getV y))

/-- `8xyE` SHL Vx, Vy (R167). -/
def execShl (x y : RegIdx) (s : State) : Result := .next (shlWith shlOrder x y s.advance)

/-- Take one RAND draw: the next free byte, and the state with the draw counted (R13, R169; log entry 2). -/
def drawRand (s : State) : Byte × State := (Config.randByte s.draws, { s with draws := s.draws + 1 })

/-- `Cxnn` RND Vx, nn (R169): one fresh draw, masked once. -/
def execRnd (x : RegIdx) (nn : Byte) (s : State) : Result :=
  .next ((drawRand s.advance).2.setV x ((drawRand s.advance).1 &&& nn))

end Sys2Proof.Machine
end

