-- ==== Sys2Proof/Machine/ControlFlow.lean ====
section
/-! DEFINITION. The meanings of spec/40_control_flow.md. Each gets the state of the step's start (pc = pc0) and advances pc
first (spec/30_encoding.md R73). -/

namespace Sys2Proof.Machine

/-- `0000` SYS 0x000: no operation (R100). -/
def execSys (s : State) : Result := .next s.advance

/-- `00EE` under the LIFO convention of R28 (R101): StackUnderflow at SP = 0. -/
def execRet (s : State) : Result :=
  if s.sp.val = 0 then takeFault (.stackUnderflow s.pc) s
  else .next (s.advance.drop.setPc s.top)

/-- `1nnn` JP nnn (R102). -/
def execJp (nnn : Addr12) (s : State) : Result := .next (s.advance.setPc (zextAddr nnn))

/-- A call with a given STACK_MAX_DEPTH (R104, D8): the pushed address is the advanced pc. -/
def callWith (depth : Nat) (nnn : Addr12) (s : State) : Result :=
  if depth ≤ s.sp.val then takeFault (.stackOverflow s.pc) s
  else .next ((s.advance.push s.advance.pc).setPc (zextAddr nnn))

/-- `2nnn` CALL nnn (R104). -/
def execCall (nnn : Addr12) (s : State) : Result := callWith stackMaxDepth nnn s

/-- `3xnn` SE Vx, nn (R105). -/
def execSeImm (x : RegIdx) (nn : Byte) (s : State) : Result := .next (s.advance.skipIf (s.getV x == nn))

/-- `4xnn` SNE Vx, nn (R106). -/
def execSneImm (x : RegIdx) (nn : Byte) (s : State) : Result := .next (s.advance.skipIf (s.getV x != nn))

/-- `5xy0` SE Vx, Vy (R107). -/
def execSeReg (x y : RegIdx) (s : State) : Result := .next (s.advance.skipIf (s.getV x == s.getV y))

/-- `9xy0` SNE Vx, Vy (R108). -/
def execSneReg (x y : RegIdx) (s : State) : Result := .next (s.advance.skipIf (s.getV x != s.getV y))

/-- `Bnnn` JP V0, nnn (R109): the offset register is always V0. -/
def execJpV0 (nnn : Addr12) (s : State) : Result := .next (s.advance.setPc (offsetTarget nnn (s.getV v0)))

end Sys2Proof.Machine
end

