-- ==== Sys2Proof/Machine/Display.lean ====
section
/-! DEFINITION. The meanings of spec/41_display.md. -/

namespace Sys2Proof.Machine

/-- `00E0` CLS (R130): every pixel false, DIRTY true. -/
def execCls (s : State) : Result := .next { s.advance with fb := clearFb, dirty := true }

/-- The state after a draw's toggles: the framebuffer, then VF, then DIRTY (R133, R138, R141). -/
def finishDraw (d : Framebuffer × Bool) (s : State) : State :=
  { s.setV vF (drawFlag d.2) with fb := d.1, dirty := true }

/-- `Dxyn` DRW Vx, Vy, n (R133): operands sampled and the range checked before any effect; I is unchanged. -/
def execDrw (x y : RegIdx) (n : Height) (s : State) : Result :=
  match firstOutOfRange s.i.toNat n.toNat with
  | some a => takeFault (.memReadOutOfRange s.pc a) s
  | none => .next (finishDraw (drawSprite s.mem s.i.toNat (s.getV x).toNat (s.getV y).toNat n.toNat s.fb) s.advance)

end Sys2Proof.Machine
end

