-- ==== Sys2Proof/Machine/IndexMemory.lean ====
section
/-! DEFINITION. The meanings of spec/43_index_memory.md. None writes VF as a flag. -/

namespace Sys2Proof.Machine

/-- `Annn` LD I, nnn (R190): no range check. -/
def execLdI (nnn : Addr12) (s : State) : Result := .next (s.advance.setI (zextAddr nnn))

/-- `IAdd(k)` under a given I_OVERFLOW (R196), for the instruction `i`. -/
def indexAddWith (rule : OverflowRule) (i : Instr) (k : Nat) (s : State) : Result :=
  match indexSum rule s.i k with
  | some w => .next (s.advance.setI w)
  | none => takeFault (.indexOverflow s.pc (encode i)) s

/-- `Fx15` under a given I_OVERFLOW and FX15_ADDEND (R191). -/
def addILitWith (rule : OverflowRule) (r : Fx15Addend) (x : RegIdx) (s : State) : Result :=
  indexAddWith rule (.addILit x) (fx15Value r x s) s

/-- `Fx15` ADD I, #x (R191): adds the literal x; no timer is written. -/
def execAddILit (x : RegIdx) (s : State) : Result := addILitWith iOverflow fx15Addend x s

/-- `Fx1E` ADD I, Vx (R192). -/
def execAddIReg (x : RegIdx) (s : State) : Result := indexAddWith iOverflow (.addIReg x) (s.getV x).toNat s

/-- `Fx29` LD F, Vx (R193): adds `5 * V[x]` to I. -/
def execLdF (x : RegIdx) (s : State) : Result := indexAddWith iOverflow (.ldF x) (glyphOffset (s.getV x)) s

/-- `Fx55` LD [I], Vx (R194): stores V0..V(x-1) at I.., exclusive of V[x]; the range is checked before any write. -/
def execStore (x : RegIdx) (s : State) : Result :=
  match firstOutOfRange s.i.toNat (literalX x) with
  | some a => takeFault (.memWriteOutOfRange s.pc a) s
  | none => .next { s.advance with mem := storeRegs s.v s.i.toNat (literalX x) s.mem }

/-- `Fx65` LD Vx, [I] (R195): loads V0..V(x-1) from I.., exclusive of V[x]; the range is checked before any write. -/
def execLoad (x : RegIdx) (s : State) : Result :=
  match firstOutOfRange s.i.toNat (literalX x) with
  | some a => takeFault (.memReadOutOfRange s.pc a) s
  | none => .next { s.advance with v := loadRegs s.mem s.i.toNat (literalX x) s.v }

end Sys2Proof.Machine
end

