-- ==== Sys2Proof/Machine/Fetch.lean ====
section
/-! DEFINITION. Fetch, decode and execute on a running block, and storing a word where the next fetch reads it. Step.lean only
calls these. -/

namespace Sys2Proof.Machine

/-- Decode what was fetched at pc and run it, or raise UnrecognizedOpcode (spec/30_encoding.md R70, R84).
The fetch always gives two bytes, so `.truncated` cannot arise from it; it would be the fetch fault. -/
def runFetched (bytes : List Byte) (s : State) : Result :=
  match decode bytes with
  | .instr i _ => exec i s
  | .unrecognized op => takeFault (.unrecognizedOpcode s.pc op) s
  | .truncated => takeFault (.fetchOutOfRange s.pc) s

/-- One fetch-decode-execute cycle of a block that is not Faulted (R70 to R73, R230): the fetch check, then decode, then the
instruction's own check. -/
def cycle (s : State) : Result :=
  match fetch s with
  | none => takeFault (.fetchOutOfRange s.pc) s
  | some bytes => runFetched bytes s

/-- Store a byte where memory exists, and nothing elsewhere. -/
def placeByte (m : Memory) (a : Nat) (b : Byte) : Memory := if a < memSize then m.write a b else m

/-- `s` with the word stored big-endian at pc and pc + 1 (R51). -/
def placeWord (s : State) (w : Word) : State :=
  { s with mem := placeByte (placeByte s.mem s.pc.toNat (highByte w)) (s.pc.toNat + 1) (lowByte w) }

end Sys2Proof.Machine
end

