-- ==== Sys2Proof/Machine/Step.lean ====
section
/-! DEFINITION. One step (spec/30_encoding.md R70), and the host's way of placing an instruction where it is fetched. -/

namespace Sys2Proof.Machine

/-- `Step()` (R70). A Faulted block answers the latched fault and changes nothing (spec/60_exceptions.md R228); otherwise one
cycle runs. A cycle that raises a fault answers the next state in which FAULT is latched (log entry 5). -/
def step (s : State) : Host.Outcome State Fault Refusal :=
  match s.fault with
  | some f => .fault f
  | none => cycle s

/-- `s` with the table's word stored where `step` fetches its next instruction; nothing else changes (log entry 4). -/
def State.withFetchWord (s : State) (nbits w : Nat) : State := placeWord s (tableWord nbits w)

end Sys2Proof.Machine
end

