-- ==== Sys2Proof/Machine/Transactions.lean ====
section
/-! DEFINITION. The block's external interface (spec/60_exceptions.md R240): construction, the step transaction, and the
host's queries and command on the framebuffer. Each is atomic (R243); no other transaction exists. -/

namespace Sys2Proof.Machine

/-- `new(program_bytes)` (spec/70_reset_and_hazards.md R250 to R253), for every value of the open parameters: refused for an
image that does not fit (R252). -/
def construct (p : ResetParams) (img : List Byte) : Result :=
  if wellFormedImage img then .next { State.blank p with mem := loadImage loadAddr img (State.blank p).mem }
  else .refused .imageTooLong

/-- What `step()` returns to the host (R241). -/
inductive StepResult where
  | executed
  | faulted (f : Fault)
  /-- Never returned: no step refuses. -/
  | refused (r : Refusal)
deriving DecidableEq, Repr

/-- `step()` as the host sees it (R240, R241): the block's new state, and `Executed` or the fault. The result of the step that
raises a fault is the fault it latched; the result in the Faulted condition is the same fault, with no change (R228). -/
def stepTransaction (s : State) : State × StepResult :=
  match step s with
  | .next t => (t, match t.fault with | none => .executed | some f => .faulted f)
  | .fault f => (s, .faulted f)
  | .refused r => (s, .refused r)

/-- `needs_redraw()` (R142). -/
def needsRedraw (s : State) : Bool := s.dirty

/-- `clear_dirty()` (R143). -/
def clearDirty (s : State) : State := { s with dirty := false }

/-- `read_framebuffer()` (R144). -/
def readFramebuffer (s : State) : Framebuffer := s.fb

/-- The host's transactions on a constructed block (R240). -/
inductive Transaction where
  | step
  | needsRedraw
  | clearDirty
  | readFramebuffer
deriving DecidableEq, Repr

/-- What a transaction returns: everything the host sees (R244). -/
inductive Response where
  | stepped (r : StepResult)
  | redraw (d : Bool)
  | cleared
  | framebuffer (fb : Framebuffer)
deriving DecidableEq, Repr

/-- One whole transaction (R240, R243). The queries and the command answer in the Faulted condition too (R228). -/
def transact (t : Transaction) (s : State) : State × Response :=
  match t with
  | .step => ((stepTransaction s).1, .stepped (stepTransaction s).2)
  | .needsRedraw => (s, .redraw (needsRedraw s))
  | .clearDirty => (clearDirty s, .cleared)
  | .readFramebuffer => (s, .framebuffer (readFramebuffer s))

/-- A sequence of whole transactions, in the order the host's threads interleave them (R243). -/
def transactAll : List Transaction → State → State × List Response
  | [], s => (s, [])
  | t :: ts, s => ((transactAll ts (transact t s).1).1, (transact t s).2 :: (transactAll ts (transact t s).1).2)

end Sys2Proof.Machine
end

