-- ==== Sys2Proof/Safety.lean ====
section
/-! DEFINITION. The terms claims are made in: what a step leaves unchanged, the invariant of the block, a good run, the
stopped condition (spec/70_reset_and_hazards.md R259), and the sprite's footprint (spec/41_display.md R137). -/

namespace Sys2Proof.Machine

/-! What is the same in two states, said through reads. -/

/-- Every V register. -/
def SameV (s t : State) : Prop := ∀ y, t.getV y = s.getV y

/-- Every V register but V[x]. -/
def SameVBut (x : RegIdx) (s t : State) : Prop := ∀ y, y ≠ x → t.getV y = s.getV y

/-- SP and all 16 stack entries. -/
def SameStack (s t : State) : Prop := t.sp = s.sp ∧ t.stack = s.stack

/-- Every pixel. -/
def SamePixels (s t : State) : Prop := ∀ c r, t.fb.pixel c r = s.fb.pixel c r

/-- Every pixel and DIRTY. -/
def SameDisplay (s t : State) : Prop := SamePixels s t ∧ t.dirty = s.dirty

/-- Every byte of memory. -/
def SameMem (s t : State) : Prop := ∀ a, t.mem.read a = s.mem.read a

/-- Everything but V, I, pc, the stack, the display and memory: the fault latch and the model's draw counter. -/
def SameRest (s t : State) : Prop := t.fault = s.fault ∧ t.draws = s.draws

/-- Nothing but pc may differ. -/
def OnlyPc (s t : State) : Prop :=
  SameV s t ∧ t.i = s.i ∧ SameStack s t ∧ SameDisplay s t ∧ SameMem s t ∧ SameRest s t

/-- Nothing but pc and V[x] may differ. -/
def OnlyPcV (x : RegIdx) (s t : State) : Prop :=
  SameVBut x s t ∧ t.i = s.i ∧ SameStack s t ∧ SameDisplay s t ∧ SameMem s t ∧ SameRest s t

/-- Nothing but pc and I may differ. -/
def OnlyPcI (s t : State) : Prop :=
  SameV s t ∧ SameStack s t ∧ SameDisplay s t ∧ SameMem s t ∧ SameRest s t

/-- Nothing but pc, SP and the stack entries may differ. -/
def OnlyPcStack (s t : State) : Prop :=
  SameV s t ∧ t.i = s.i ∧ SameDisplay s t ∧ SameMem s t ∧ SameRest s t

/-- Nothing but the fault latch may differ (spec/60_exceptions.md R228: the state is as it was before the step). -/
def OnlyLatch (s t : State) : Prop :=
  SameV s t ∧ t.i = s.i ∧ t.pc = s.pc ∧ SameStack s t ∧ SameDisplay s t ∧ SameMem s t ∧ t.draws = s.draws

/-- Nothing but DIRTY may differ. -/
def OnlyDirty (s t : State) : Prop :=
  SameV s t ∧ t.i = s.i ∧ t.pc = s.pc ∧ SameStack s t ∧ SamePixels s t ∧ SameMem s t ∧ SameRest s t

/-- Nothing but pixels and DIRTY may differ. -/
def OnlyDisplay (s t : State) : Prop :=
  SameV s t ∧ t.i = s.i ∧ t.pc = s.pc ∧ SameStack s t ∧ SameMem s t ∧ SameRest s t

/-- `r` is a next state that raised the fault `f`: FAULT latched, nothing else changed (R228). That the outcome is `next` is log
entry 5. -/
def Raises (f : Fault) (s : State) (r : Result) : Prop := ∃ t, r = .next t ∧ t.fault = some f ∧ OnlyLatch s t

/-! The invariant. -/

/-- What every reachable state has, and every step keeps. -/
structure Inv (s : State) : Prop where
  /-- Memory is in its canonical form. -/
  mem_wf : Memory.wf s.mem
  /-- pc never passes the greatest target, that of `BFFF` with V0 = 0xFF (spec/10_state.md R27). -/
  pc_le : s.pc.toNat ≤ 0x10FE
  /-- "stack pointer stays within [0, 16)" (R28). -/
  sp_lt : s.sp.val < 16
  /-- A return address that is still outstanding is at most 0x1000 (R27, spec/40_control_flow.md R101). -/
  ret_le : ∀ (k : Nat) (h : k < 16), k < s.sp.val → (s.stack[k]'h).toNat ≤ 0x1000
  /-- A latched fault names the pc it was raised at, and pc has not moved since (spec/30_encoding.md R71). -/
  fault_pc : ∀ f, s.fault = some f → f.pc = s.pc

/-! Runs. -/

/-- The block runs: no fault is latched. The Faulted condition is never a good end (D6). -/
def Running (s : State) : Prop := s.fault = none

/-- A good step: it answers a next state that is still running. -/
def GoodStep (s t : State) : Prop := step s = .next t ∧ Running t

/-- `n` steps from `s` to `t`, with SP above `k` after each of them: every call made meanwhile is matched before a return
would pop entry `k` (spec/40_control_flow.md R110). -/
def StepsAbove (k : Nat) : Nat → State → State → Prop
  | 0, s, t => s = t
  | n + 1, s, t => ∃ m, step s = .next m ∧ k < m.sp.val ∧ StepsAbove k n m t

/-- The opcode at an address: `MEM[a] ++ MEM[a+1]` (spec/20_memory.md R51). -/
def wordAt (m : Memory) (a : Nat) : Word := m.read a ++ m.read (a + 1)

/-- The program has stopped at address `a` (R259): not Faulted, pc there, and the word there jumps to itself. -/
def StoppedAt (a : Nat) (s : State) : Prop :=
  Running s ∧ s.pc.toNat = a ∧ a ≤ 0xFFE ∧ (wordAt s.mem a).toNat = 0x1000 + a

/-! Sets of instructions the spec's rules name. -/

/-- The writers of V[y] (spec/10_state.md R22). -/
def writesV : Instr → RegIdx → Bool
  | .ldImm x _, y | .addImm x _, y | .rnd x _, y => y == x
  | .ldReg x _, y | .andReg x _, y | .xorReg x _, y | .addReg x _, y | .subReg x _, y => y == x
  | .shl x _, y => y == x || y == vF
  | .drw _ _ _, y => y == vF
  | .load x, y => decide (y.toNat < x.toNat)
  | .sys, _ | .cls, _ | .ret, _ | .jp _, _ | .call _, _ | .seImm _ _, _ | .sneImm _ _, _ | .seReg _ _, _ => false
  | .sneReg _ _, _ | .ldI _, _ | .jpV0 _, _ | .addILit _, _ | .addIReg _, _ | .ldF _, _ | .store _, _ => false

/-- The writers of I (R25). -/
def writesI : Instr → Bool
  | .ldI _ | .addILit _ | .addIReg _ | .ldF _ => true
  | .sys | .cls | .ret | .jp _ | .call _ | .seImm _ _ | .sneImm _ _ | .seReg _ _ | .ldImm _ _ | .addImm _ _ => false
  | .ldReg _ _ | .andReg _ _ | .xorReg _ _ | .addReg _ _ | .subReg _ _ | .shl _ _ | .sneReg _ _ | .jpV0 _ => false
  | .rnd _ _ | .drw _ _ _ | .store _ | .load _ => false

/-- The instructions that write pixels and set DIRTY: `00E0` and `Dxyn` (R31, R32). -/
def drawsPixels : Instr → Bool
  | .cls | .drw _ _ _ => true
  | .sys | .ret | .jp _ | .call _ | .seImm _ _ | .sneImm _ _ | .seReg _ _ | .ldImm _ _ | .addImm _ _ | .ldReg _ _ => false
  | .andReg _ _ | .xorReg _ _ | .addReg _ _ | .subReg _ _ | .shl _ _ | .sneReg _ _ | .ldI _ | .jpV0 _ | .rnd _ _ => false
  | .addILit _ | .addIReg _ | .ldF _ | .store _ | .load _ => false

/-- The instructions that write pc: jumps, call, return and skips (spec/30_encoding.md R73). -/
def writesPc : Instr → Bool
  | .ret | .jp _ | .call _ | .seImm _ _ | .sneImm _ _ | .seReg _ _ | .sneReg _ _ | .jpV0 _ => true
  | .sys | .cls | .ldImm _ _ | .addImm _ _ | .ldReg _ _ | .andReg _ _ | .xorReg _ _ | .addReg _ _ | .subReg _ _ => false
  | .shl _ _ | .ldI _ | .rnd _ _ | .drw _ _ _ | .addILit _ | .addIReg _ | .ldF _ | .store _ | .load _ => false

/-- The code of the one cause an instruction can raise of its own, 0 for none (spec/60_exceptions.md R230). -/
def ownFaultCode : Instr → Nat
  | .drw _ _ _ | .load _ => 3
  | .store _ => 4
  | .call _ => 5
  | .ret => 6
  | .addReg _ _ | .subReg _ _ => 7
  | .addILit _ | .addIReg _ | .ldF _ => 8
  | .sys | .cls | .jp _ | .seImm _ _ | .sneImm _ _ | .seReg _ _ | .ldImm _ _ | .addImm _ _ | .ldReg _ _ => 0
  | .andReg _ _ | .xorReg _ _ | .shl _ _ | .sneReg _ _ | .ldI _ | .jpV0 _ | .rnd _ _ => 0

/-! The sprite. -/

/-- Pixel (c, r) is the target of a 1-bit of the sprite of n rows at `base`, drawn with its origin at column cx, row cy
(R132, R134, R137: the set S). -/
def SpriteCovers (m : Memory) (base cx cy n : Nat) (c : Fin fbW) (r : Fin fbH) : Prop :=
  ∃ row col, row < n ∧ col < 8 ∧ (cx + col) % fbW = c.val ∧ (cy + row) % fbH = r.val ∧
    ((m.read (base + row)).toNat >>> (7 - col)) % 2 = 1

end Sys2Proof.Machine
end

