-- ==== Sys2Proof/Certificates/Slice0/Obligations.lean ====
section
/-! DEFINITION. The statements for the provers. `exec i s` is on the state of the step's start, so `s.pc` is pc0, the address
of the instruction itself. Each completion statement names what the next state holds and everything that stays the same. -/

open Sys2Proof Sys2Proof.Machine

/-! ## Encoding (spec/30_encoding.md) -/

/-- Tier 3. Decoding the stored bytes of any instruction, with any bytes after them, gives it back with every operand, and the
rest (R51, R76, R80; the formats are the spec's inference, R75). -/
def Obligations.DecodeOfEncode : Prop :=
  ∀ (i : Instr) (rest : List Byte), decode (wordBytes (encode i) ++ rest) = .instr i rest

/-- Tier 2. A recognised word is the encoding of the instruction it decodes to: no bit of it is dropped (R80). -/
def Obligations.EncodeOfDecode : Prop := ∀ (w : Word) (i : Instr), decodeWord w = some i → encode i = w

/-- Tier 2. The decoder follows the opcode table: a word matches a row (`op & mask = match`) exactly when it decodes to an
instruction of that row (R80, R81). -/
def Obligations.DecodeFollowsTable : Prop :=
  ∀ w : Word,
    (∀ i, decodeWord w = some i → i.row ∈ opcodeTable ∧ w &&& i.row.mask = i.row.value) ∧
    (∀ r ∈ opcodeTable, w &&& r.mask = r.value → ∃ i, decodeWord w = some i ∧ i.row = r)

/-- Tier 2. For every word, at most one row of the table matches (the spec's inference, R86). -/
def Obligations.AtMostOneRowMatches : Prop :=
  ∀ (w : Word) (r q : Row), r ∈ opcodeTable → q ∈ opcodeTable → w &&& r.mask = r.value → w &&& q.mask = q.value → r = q

/-- Tier 2. The unrecognised words are exactly these, by family (R82, R83, R84, R85). -/
def Obligations.UnrecognizedWords : Prop :=
  ∀ w : Word, decodeWord w = none ↔
    (w.toNat < 0x1000 ∧ w.toNat ≠ 0x0000 ∧ w.toNat ≠ 0x00E0 ∧ w.toNat ≠ 0x00EE) ∨
    (w.toNat / 0x1000 = 0x5 ∧ w.toNat % 16 ≠ 0) ∨
    (w.toNat / 0x1000 = 0x8 ∧ w.toNat % 16 ∈ [0x1, 0x6, 0x7, 0x8, 0x9, 0xA, 0xB, 0xC, 0xD, 0xF]) ∨
    (w.toNat / 0x1000 = 0x9 ∧ w.toNat % 16 ≠ 0) ∨
    w.toNat / 0x1000 = 0xE ∨
    (w.toNat / 0x1000 = 0xF ∧ w.toNat % 0x100 ∉ [0x15, 0x1E, 0x29, 0x55, 0x65])

/-- Tier 1. Twelve words of the first-nibble families 0, 1, 2, 3, 6, 8, 9, D and F, written out from the pattern column of R80,
decode to the instructions they stand for, and 8121 and E19E decode to none. -/
def Obligations.PatternWordsDecode : Prop :=
  decodeWord 0x00E0#16 = some .cls ∧ decodeWord 0x00EE#16 = some .ret ∧ decodeWord 0x0000#16 = some .sys ∧
  decodeWord 0x1234#16 = some (.jp 0x234#12) ∧ decodeWord 0x2210#16 = some (.call 0x210#12) ∧
  decodeWord 0x3A05#16 = some (.seImm 0xA#4 0x05#8) ∧ decodeWord 0x9120#16 = some (.sneReg 0x1#4 0x2#4) ∧
  decodeWord 0x6A05#16 = some (.ldImm 0xA#4 0x05#8) ∧ decodeWord 0x812E#16 = some (.shl 0x1#4 0x2#4) ∧
  decodeWord 0xD01F#16 = some (.drw 0x0#4 0x1#4 0xF#4) ∧ decodeWord 0xF315#16 = some (.addILit 0x3#4) ∧
  decodeWord 0xF265#16 = some (.load 0x2#4) ∧ decodeWord 0x8121#16 = none ∧ decodeWord 0xE19E#16 = none

/-! ## The step (spec/30_encoding.md, spec/60_exceptions.md) -/

/-- Tier 1. When the block runs and the two bytes at pc exist and decode to `i`, the step is `exec i`: high byte first, at the
pc of the instruction, with nothing else done around it (R70, R72; the advance of R73 is `exec`'s first act). -/
def Obligations.StepRunsDecoded : Prop :=
  ∀ (s : State) (i : Instr), s.fault = none → s.pc.toNat + 1 < 4096 →
    decodeWord (s.mem.read s.pc.toNat ++ s.mem.read (s.pc.toNat + 1)) = some i → step s = exec i s

/-- Tier 2. A recognised word placed where the step fetches is the instruction the step runs (R51, R72; the model's own
`withFetchWord`, log entry 4). -/
def Obligations.PlacedWordRuns : Prop :=
  ∀ (s : State) (w : Word) (i : Instr), s.fault = none → Memory.wf s.mem → s.pc.toNat + 1 < 4096 →
    decodeWord w = some i → step (s.withFetchWord 16 w.toNat) = exec i (s.withFetchWord 16 w.toNat)

/-- Tier 2. A step of a running block always answers a next state, and no step refuses anything (R234: every recognised
instruction may execute at any time). That a step that raises a fault (a fetch out of range, an unrecognised word, an
instruction's own fault) answers `next` with FAULT latched, and not the outcome `fault`, is the model's choice (log entry 5). -/
def Obligations.RunningBlockSteps : Prop :=
  (∀ s : State, s.fault = none → ∃ t, step s = .next t) ∧ ∀ (s : State) (r : Refusal), step s ≠ .refused r

/-- Tier 2. The Faulted condition (R71, R228, R229): a fault is precise, that is, the step that raises it reports it, latches it,
names the instruction's pc and leaves everything else as it was before the step; every later step returns the same fault and
changes nothing; no sequence of transactions clears it or changes anything but DIRTY, and the queries still
answer; a newly constructed block is not Faulted. -/
def Obligations.FaultedCondition : Prop :=
  (∀ (s t : State) (f : Fault), s.fault = none → step s = .next t → t.fault = some f →
    OnlyLatch s t ∧ f.pc = s.pc ∧ stepTransaction s = (t, .faulted f)) ∧
  (∀ (s : State) (f : Fault), s.fault = some f →
    step s = .fault f ∧ stepTransaction s = (s, .faulted f) ∧
    transact .needsRedraw s = (s, .redraw s.dirty) ∧ transact .readFramebuffer s = (s, .framebuffer s.fb) ∧
    (transact .clearDirty s).1.dirty = false ∧ (transact .clearDirty s).2 = .cleared ∧
    (∀ ts : List Transaction, (transactAll ts s).1.fault = some f ∧ OnlyDirty s (transactAll ts s).1)) ∧
  (∀ (p : ResetParams) (img : List Byte) (t : State), construct p img = .next t → t.fault = none)

/-- Tier 2. The order of the checks (R230): the fetch check first, with info pc (R223); then decode, with info the pc and the raw
opcode (R224); and then at most the instruction's one check of its own. -/
def Obligations.FaultPriority : Prop :=
  (∀ s : State, s.fault = none → 4096 ≤ s.pc.toNat + 1 → Raises (.fetchOutOfRange s.pc) s (step s)) ∧
  (∀ s : State, s.fault = none → s.pc.toNat + 1 < 4096 → decodeWord (wordAt s.mem s.pc.toNat) = none →
    Raises (.unrecognizedOpcode s.pc (wordAt s.mem s.pc.toNat)) s (step s)) ∧
  (∀ (i : Instr) (s t : State) (f : Fault), s.fault = none → exec i s = .next t → t.fault = some f →
    f.code = ownFaultCode i ∧ f.pc = s.pc ∧
    (∀ p a, f = .memReadOutOfRange p a ∨ f = .memWriteOutOfRange p a → a = max s.i.toNat 4096))

/-- Tier 2. When an instruction raises each fault, and with what info (R221, R222, R225, R226; and the overflows of R165, R166 and
R196 under the default parameters): exactly on these operands; the block is then as it was before the step but for the latch.
(SP = 16, beside 15, is no state a run reaches.) -/
def Obligations.FaultTable : Prop :=
  ∀ (i : Instr) (s t : State), s.fault = none → exec i s = .next t →
    (∀ p a, t.fault = some (.memReadOutOfRange p a) ↔ p = s.pc ∧ a = max s.i.toNat 4096 ∧
      ((∃ x y n, i = .drw x y n ∧ n.toNat ≠ 0 ∧ 4096 < s.i.toNat + n.toNat) ∨
       (∃ x, i = .load x ∧ x.toNat ≠ 0 ∧ 4096 < s.i.toNat + x.toNat))) ∧
    (∀ p a, t.fault = some (.memWriteOutOfRange p a) ↔ p = s.pc ∧ a = max s.i.toNat 4096 ∧
      ∃ x, i = .store x ∧ x.toNat ≠ 0 ∧ 4096 < s.i.toNat + x.toNat) ∧
    (∀ p, t.fault = some (.stackOverflow p) ↔ p = s.pc ∧ ∃ nnn, i = .call nnn ∧ 15 ≤ s.sp.val) ∧
    (∀ p, t.fault = some (.stackUnderflow p) ↔ p = s.pc ∧ i = .ret ∧ s.sp.val = 0) ∧
    (∀ p op, t.fault = some (.aluOverflow p op) ↔ p = s.pc ∧ op = encode i ∧
      ((∃ x y, i = .addReg x y ∧ 255 < (s.getV x).toNat + (s.getV y).toNat) ∨
       (∃ x y, i = .subReg x y ∧ (s.getV x).toNat < (s.getV y).toNat))) ∧
    (∀ p op, t.fault = some (.indexOverflow p op) ↔ p = s.pc ∧ op = encode i ∧
      ((∃ x, i = .addILit x ∧ 0xFFFF < s.i.toNat + x.toNat) ∨
       (∃ x, i = .addIReg x ∧ 0xFFFF < s.i.toNat + (s.getV x).toNat) ∨
       (∃ x, i = .ldF x ∧ 0xFFFF < s.i.toNat + 5 * (s.getV x).toNat))) ∧
    (t.fault ≠ none → OnlyLatch s t)

/-- Tier 1. What `step()` returns to the host: always `Executed` or a fault, and `Executed` exactly when the step raised none
(R241). -/
def Obligations.StepTransactionResult : Prop :=
  (∀ s t : State, s.fault = none → step s = .next t →
    (t.fault = none → stepTransaction s = (t, .executed)) ∧
    (∀ f, t.fault = some f → stepTransaction s = (t, .faulted f))) ∧
  (∀ s : State, (stepTransaction s).2 = .executed ∨ ∃ f, (stepTransaction s).2 = .faulted f)

/-! ## Invariants -/

/-- Tier 3. Every step keeps the invariant: canonical memory, pc at most 0x10FE, SP in [0, 16), outstanding return addresses at
most 0x1000, and a latched fault at its pc (R28, R53, R71; the bound on pc is the spec's inference, R27). -/
def Obligations.StepKeepsInvariant : Prop := ∀ s t : State, Inv s → step s = .next t → Inv t

/-- Tier 1. The invariant holds at reset. -/
def Obligations.ResetMeetsInvariant : Prop := Inv State.reset

/-- Tier 2. The invariant holds in every constructed block, for every image that is accepted and every value of the open
parameters (R251). -/
def Obligations.ConstructedMeetsInvariant : Prop :=
  ∀ (p : ResetParams) (img : List Byte) (t : State), construct p img = .next t → Inv t

/-! ## Reset (spec/70_reset_and_hazards.md) -/

/-- Tier 2. The reset procedure, for every image and every value of the open parameters (R251): a longer image is refused; else
memory holds the image at 0x200 and zero elsewhere, and every other piece of state has its reset value. -/
def Obligations.ConstructResets : Prop :=
  (∀ (p : ResetParams) (img : List Byte), 4096 - 0x200 < img.length → construct p img = .refused .imageTooLong) ∧
  (∀ (p : ResetParams) (img : List Byte), img.length ≤ 4096 - 0x200 → ∃ t, construct p img = .next t ∧
    (∀ (k : Nat) (h : k < img.length), t.mem.read (0x200 + k) = img[k]'h) ∧
    (∀ a, a < 0x200 ∨ 0x200 + img.length ≤ a → t.mem.read a = 0x00#8) ∧
    t.pc = 0x200#16 ∧ (∀ x, t.getV x = readReg p.v x) ∧ t.i = p.i ∧ t.sp.val = 0 ∧
    (∀ c r, t.fb.pixel c r = false) ∧ t.dirty = false ∧ t.fault = none)

/-- Tier 2. After reset pc = 0x200 and the first fetch reads the image's first two bytes, a missing byte being zero (R253). -/
def Obligations.FirstFetch : Prop :=
  ∀ (p : ResetParams) (img : List Byte) (t : State), construct p img = .next t →
    t.pc = 0x200#16 ∧ wordAt t.mem t.pc.toNat = img.getD 0 0x00#8 ++ img.getD 1 0x00#8

/-! ## Control flow (spec/40_control_flow.md) -/

/-- Tier 1. `0000` does nothing: pc stays pc0 + 2 (R100). -/
def Obligations.SysDoesNothing : Prop := ∀ s : State, ∃ t, exec .sys s = .next t ∧ t.pc = s.pc + 2 ∧ OnlyPc s t

/-- Tier 1. `00EE` with SP > 0 restores the most recent return address and counts one fewer, leaving the entries; with SP = 0
it raises StackUnderflow (R101). -/
def Obligations.RetPops : Prop :=
  (∀ (s : State) (k : Nat) (hk : k < 16), s.sp.val = k + 1 → ∃ t, exec .ret s = .next t ∧
    t.pc = s.stack[k]'hk ∧ t.sp.val = k ∧ t.stack = s.stack ∧ OnlyPcStack s t) ∧
  (∀ s : State, s.sp.val = 0 → Raises (.stackUnderflow s.pc) s (exec .ret s))

/-- Tier 1. `1nnn` sets pc to nnn, unchecked (R102). -/
def Obligations.JpJumps : Prop :=
  ∀ (s : State) (nnn : Addr12), ∃ t, exec (.jp nnn) s = .next t ∧ t.pc.toNat = nnn.toNat ∧ OnlyPc s t

/-- Tier 1. `2nnn` with SP < 15 stores pc0 + 2 in STACK[SP], counts one more and goes to nnn; with SP = 15 it raises
StackOverflow (R104). -/
def Obligations.CallPushes : Prop :=
  (∀ (s : State) (nnn : Addr12), s.sp.val < 15 → ∃ t, exec (.call nnn) s = .next t ∧
    t.pc.toNat = nnn.toNat ∧ t.sp.val = s.sp.val + 1 ∧
    (∀ (k : Nat) (hk : k < 16), t.stack[k]'hk = if k = s.sp.val then s.pc + 2 else s.stack[k]'hk) ∧ OnlyPcStack s t) ∧
  (∀ (s : State) (nnn : Addr12), s.sp.val = 15 → Raises (.stackOverflow s.pc) s (exec (.call nnn) s))

/-- Tier 1. Under the alternative STACK_MAX_DEPTH = 16 all 16 entries can be used, and a call at SP = 16 faults (R28, D8; not
this hardware's value). -/
def Obligations.CallUnderDepth16 : Prop :=
  (∀ (s : State) (nnn : Addr12), s.sp.val < 16 → ∃ t, callWith 16 nnn s = .next t ∧
    t.pc.toNat = nnn.toNat ∧ t.sp.val = s.sp.val + 1 ∧
    (∀ (k : Nat) (hk : k < 16), t.stack[k]'hk = if k = s.sp.val then s.pc + 2 else s.stack[k]'hk) ∧ OnlyPcStack s t) ∧
  (∀ (s : State) (nnn : Addr12), s.sp.val = 16 → Raises (.stackOverflow s.pc) s (callWith 16 nnn s))

/-- Tier 1. `3xnn` skips one word (pc0 + 4) exactly when V[x] = nn, and `4xnn` exactly when V[x] differs from nn (R103, R105,
R106). -/
def Obligations.ImmediateSkips : Prop :=
  (∀ (s : State) (x : RegIdx) (nn : Byte), ∃ t, exec (.seImm x nn) s = .next t ∧
    t.pc = (if s.getV x = nn then s.pc + 4 else s.pc + 2) ∧ OnlyPc s t) ∧
  (∀ (s : State) (x : RegIdx) (nn : Byte), ∃ t, exec (.sneImm x nn) s = .next t ∧
    t.pc = (if s.getV x = nn then s.pc + 2 else s.pc + 4) ∧ OnlyPc s t)

/-- Tier 1. `5xy0` skips one word exactly when V[x] = V[y], and `9xy0` exactly when they differ (R103, R107, R108). -/
def Obligations.RegisterSkips : Prop :=
  (∀ (s : State) (x y : RegIdx), ∃ t, exec (.seReg x y) s = .next t ∧
    t.pc = (if s.getV x = s.getV y then s.pc + 4 else s.pc + 2) ∧ OnlyPc s t) ∧
  (∀ (s : State) (x y : RegIdx), ∃ t, exec (.sneReg x y) s = .next t ∧
    t.pc = (if s.getV x = s.getV y then s.pc + 2 else s.pc + 4) ∧ OnlyPc s t)

/-- Tier 1. `Bnnn` sets pc to nnn + V[0], exact, with no wrap (R109). -/
def Obligations.JpV0Jumps : Prop :=
  ∀ (s : State) (nnn : Addr12), ∃ t, exec (.jpV0 nnn) s = .next t ∧
    t.pc.toNat = nnn.toNat + (s.getV 0x0#4).toNat ∧ OnlyPc s t

/-- Tier 3. The call/return round trip (the spec's inference, R110): after a call, whatever steps run while every later call is matched (SP stays
above the caller's), the return that pops this entry comes back to pc0 + 2. -/
def Obligations.CallReturnRoundTrip : Prop :=
  ∀ (s t u : State) (nnn : Addr12) (n : Nat), s.sp.val < 15 → exec (.call nnn) s = .next t →
    StepsAbove s.sp.val n t u → u.sp.val = s.sp.val + 1 →
    ∃ v, exec .ret u = .next v ∧ v.pc = s.pc + 2 ∧ v.sp.val = s.sp.val

/-- Tier 2. An instruction that does not write pc leaves it at pc0 + 2, unless it faults (R73). -/
def Obligations.PcAdvances : Prop :=
  ∀ (i : Instr) (s t : State), writesPc i = false → s.fault = none → exec i s = .next t → t.fault = none →
    t.pc = s.pc + 2

/-- Tier 2. Only `2nnn` and `00EE` touch SP and the stack (the spec's inference, R29). -/
def Obligations.OnlyCallAndRetTouchStack : Prop :=
  ∀ (i : Instr) (s t : State), (∀ nnn, i ≠ .call nnn) → i ≠ .ret → exec i s = .next t → SameStack s t

/-- Tier 2. A stopped program stays stopped: from the self-jump state a step changes nothing, so k steps change nothing
(R259). -/
def Obligations.StoppedIsFixed : Prop :=
  ∀ (a : Nat) (s : State), StoppedAt a s → step s = .next s ∧ ∀ k, Host.Core.run core k s = .next s

/-! ## Display (spec/41_display.md) -/

/-- Tier 1. `00E0` sets every pixel false and DIRTY true, and VF is not written (R130). -/
def Obligations.ClsClears : Prop :=
  ∀ s : State, ∃ t, exec .cls s = .next t ∧ (∀ c r, t.fb.pixel c r = false) ∧ t.dirty = true ∧ t.pc = s.pc + 2 ∧
    SameV s t ∧ t.i = s.i ∧ SameStack s t ∧ SameMem s t ∧ SameRest s t

/-- Tier 1. Two `00E0` leave the framebuffer as one does, and each sets DIRTY, whatever the host cleared in between (the
spec's inference, R131). -/
def Obligations.ClsIdempotent : Prop :=
  ∀ s : State, ∃ t u, exec .cls s = .next t ∧ exec .cls (clearDirty t) = .next u ∧
    t.dirty = true ∧ u.dirty = true ∧ SamePixels t u ∧ ∀ c r, u.fb.pixel c r = false

/-- Tier 2. `Dxyn` in range toggles exactly the pixels the sprite's 1-bits fall on, with wrap on both axes, sets VF to 1 exactly
when some sprite byte is nonzero, sets DIRTY, and changes nothing else; a sprite that passes the end of memory raises
MemReadOutOfRange with the lowest such address, and no pixel, VF or DIRTY changes (R132, R133, R134, R138). -/
def Obligations.DrwBlits : Prop :=
  (∀ (s : State) (x y : RegIdx) (n : Height), n.toNat = 0 ∨ s.i.toNat + n.toNat ≤ 4096 →
    ∃ t, exec (.drw x y n) s = .next t ∧
      (∀ c r, SpriteCovers s.mem s.i.toNat (s.getV x).toNat (s.getV y).toNat n.toNat c r →
        t.fb.pixel c r = !s.fb.pixel c r) ∧
      (∀ c r, ¬ SpriteCovers s.mem s.i.toNat (s.getV x).toNat (s.getV y).toNat n.toNat c r →
        t.fb.pixel c r = s.fb.pixel c r) ∧
      ((∃ r, r < n.toNat ∧ s.mem.read (s.i.toNat + r) ≠ 0x00#8) → t.getV 0xF#4 = 0x01#8) ∧
      ((∀ r, r < n.toNat → s.mem.read (s.i.toNat + r) = 0x00#8) → t.getV 0xF#4 = 0x00#8) ∧
      t.dirty = true ∧ t.pc = s.pc + 2 ∧ SameVBut 0xF#4 s t ∧ t.i = s.i ∧ SameStack s t ∧ SameMem s t ∧ SameRest s t) ∧
  (∀ (s : State) (x y : RegIdx) (n : Height), n.toNat ≠ 0 → 4096 < s.i.toNat + n.toNat →
    Raises (.memReadOutOfRange s.pc (max s.i.toNat 4096)) s (exec (.drw x y n) s))

/-- Tier 2. A draw is its own inverse when the coordinates are not VF: the same draw twice restores every pixel, and both give
the same VF (the spec's inference, R139). -/
def Obligations.DrawTwiceRestores : Prop :=
  ∀ (s : State) (x y : RegIdx) (n : Height), x ≠ 0xF#4 → y ≠ 0xF#4 → n.toNat = 0 ∨ s.i.toNat + n.toNat ≤ 4096 →
    ∃ t u, exec (.drw x y n) s = .next t ∧ exec (.drw x y n) t = .next u ∧ SamePixels s u ∧ u.getV 0xF#4 = t.getV 0xF#4

/-- Tier 1. `Dxy0` reads nothing and never faults, whatever I is: the framebuffer is unchanged, VF = 0, DIRTY = true (the
spec's inference, R140). -/
def Obligations.DrawOfHeightZero : Prop :=
  ∀ (s : State) (x y : RegIdx), ∃ t, exec (.drw x y 0x0#4) s = .next t ∧
    SamePixels s t ∧ t.getV 0xF#4 = 0x00#8 ∧ t.dirty = true ∧ t.pc = s.pc + 2

/-- Tier 2. DIRTY is set by every `00E0` and every `Dxyn` that executes; no other instruction changes it, and a draw that faults
does not (R141). -/
def Obligations.DirtyTracksDraws : Prop :=
  ∀ (i : Instr) (s t : State), s.fault = none → exec i s = .next t →
    (drawsPixels i = true → t.fault = none → t.dirty = true) ∧
    (drawsPixels i = true → t.fault ≠ none → t.dirty = s.dirty) ∧
    (drawsPixels i = false → t.dirty = s.dirty)

/-- Tier 2. Only `00E0` and `Dxyn` write pixels (R31). -/
def Obligations.OnlyDrawsWritePixels : Prop :=
  ∀ (i : Instr) (s t : State), drawsPixels i = false → exec i s = .next t → SamePixels s t

/-- Tier 1. The host's display transactions: `needs_redraw` returns DIRTY and changes nothing, `clear_dirty` sets DIRTY false and
changes nothing else (and no instruction clears it), a framebuffer read returns the grid and changes nothing (R142, R143, R144). -/
def Obligations.HostDisplayTransactions : Prop :=
  ∀ s : State,
    transact .needsRedraw s = (s, .redraw s.dirty) ∧
    transact .readFramebuffer s = (s, .framebuffer s.fb) ∧
    (∃ t, transact .clearDirty s = (t, .cleared) ∧ t.dirty = false ∧ OnlyDirty s t) ∧
    (∀ (i : Instr) (t : State), exec i s = .next t → s.dirty = true → t.dirty = true)

/-- Tier 3. What the framebuffer and DIRTY hold cannot reach any other state: a step of two states that differ only there gives
two states that differ only there, or the same stop, given the same RAND draws (log entry 2) (R32: no instruction reads DIRTY;
R66; R138: VF after a draw does not depend on what the framebuffer held). -/
def Obligations.DisplayIsNotRead : Prop :=
  ∀ (s : State) (g : Framebuffer) (d : Bool),
    (∀ t, step s = .next t → ∃ u, step { s with fb := g, dirty := d } = .next u ∧ u.v = t.v ∧ u.i = t.i ∧ u.pc = t.pc ∧
      u.stack = t.stack ∧ u.sp = t.sp ∧ u.mem = t.mem ∧ u.fault = t.fault ∧ u.draws = t.draws) ∧
    (∀ f, step s = .fault f → step { s with fb := g, dirty := d } = .fault f)

/-! ## ALU and registers (spec/42_alu.md) -/

/-- Tier 1. `6xnn` writes nn to V[x] (R160). -/
def Obligations.LdImmLoads : Prop :=
  ∀ (s : State) (x : RegIdx) (nn : Byte), ∃ t, exec (.ldImm x nn) s = .next t ∧
    t.getV x = nn ∧ t.pc = s.pc + 2 ∧ OnlyPcV x s t

/-- Tier 1. `7xnn` writes (V[x] + nn) mod 256, and no carry anywhere (R161). -/
def Obligations.AddImmWraps : Prop :=
  ∀ (s : State) (x : RegIdx) (nn : Byte), ∃ t, exec (.addImm x nn) s = .next t ∧
    (t.getV x).toNat = ((s.getV x).toNat + nn.toNat) % 256 ∧ t.pc = s.pc + 2 ∧ OnlyPcV x s t

/-- Tier 1. `8xy0` copies V[y] to V[x] (R162). -/
def Obligations.LdRegCopies : Prop :=
  ∀ (s : State) (x y : RegIdx), ∃ t, exec (.ldReg x y) s = .next t ∧
    t.getV x = s.getV y ∧ t.pc = s.pc + 2 ∧ OnlyPcV x s t

/-- Tier 1. `8xy2` and `8xy3` write the bitwise AND and XOR, and no flag (R163, R164). -/
def Obligations.AndXorRegisters : Prop :=
  (∀ (s : State) (x y : RegIdx), ∃ t, exec (.andReg x y) s = .next t ∧
    t.getV x = s.getV x &&& s.getV y ∧ t.pc = s.pc + 2 ∧ OnlyPcV x s t) ∧
  (∀ (s : State) (x y : RegIdx), ∃ t, exec (.xorReg x y) s = .next t ∧
    t.getV x = s.getV x ^^^ s.getV y ∧ t.pc = s.pc + 2 ∧ OnlyPcV x s t)

/-- Tier 1. `8xy4`: the sum when it fits; above 255 it raises AluOverflow with its pc and word, or, under ALU_OVERFLOW = Wrap,
writes the sum less 256. VF is never a flag (R165). -/
def Obligations.AddRegAdds : Prop :=
  (∀ (s : State) (x y : RegIdx), (s.getV x).toNat + (s.getV y).toNat ≤ 255 → ∃ t, exec (.addReg x y) s = .next t ∧
    (t.getV x).toNat = (s.getV x).toNat + (s.getV y).toNat ∧ t.pc = s.pc + 2 ∧ OnlyPcV x s t) ∧
  (∀ (s : State) (x y : RegIdx), 255 < (s.getV x).toNat + (s.getV y).toNat →
    Raises (.aluOverflow s.pc (BitVec.ofNat 16 (0x8004 + 256 * x.toNat + 16 * y.toNat))) s (exec (.addReg x y) s)) ∧
  (∀ (s : State) (x y : RegIdx), 255 < (s.getV x).toNat + (s.getV y).toNat → ∃ t, addRegWith .wrap x y s = .next t ∧
    (t.getV x).toNat = (s.getV x).toNat + (s.getV y).toNat - 256 ∧ t.pc = s.pc + 2 ∧ OnlyPcV x s t)

/-- Tier 1. `8xy5`: the difference when V[x] >= V[y]; below, it raises AluOverflow with its pc and word, or, under ALU_OVERFLOW =
Wrap, writes V[x] + 256 - V[y]. VF is never a flag (R166). -/
def Obligations.SubRegSubtracts : Prop :=
  (∀ (s : State) (x y : RegIdx), (s.getV y).toNat ≤ (s.getV x).toNat → ∃ t, exec (.subReg x y) s = .next t ∧
    (t.getV x).toNat = (s.getV x).toNat - (s.getV y).toNat ∧ t.pc = s.pc + 2 ∧ OnlyPcV x s t) ∧
  (∀ (s : State) (x y : RegIdx), (s.getV x).toNat < (s.getV y).toNat →
    Raises (.aluOverflow s.pc (BitVec.ofNat 16 (0x8005 + 256 * x.toNat + 16 * y.toNat))) s (exec (.subReg x y) s)) ∧
  (∀ (s : State) (x y : RegIdx), (s.getV x).toNat < (s.getV y).toNat → ∃ t, subRegWith .wrap x y s = .next t ∧
    (t.getV x).toNat = (s.getV x).toNat + 256 - (s.getV y).toNat ∧ t.pc = s.pc + 2 ∧ OnlyPcV x s t)

/-- Tier 2. `8xyE`, in every overlap of x, y and F, under both write orders (R167): VF is bit 7 of V[y], V[x] is shifted left by
one; FlagFirst is what `exec` runs. -/
def Obligations.ShlShifts : Prop :=
  (∀ (s : State) (x y : RegIdx), ∃ t, exec (.shl x y) s = .next t ∧
    (t.getV x).toNat = (if x = 0xF#4 then 2 * ((s.getV y).toNat / 128) else 2 * (s.getV x).toNat % 256) ∧
    (x ≠ 0xF#4 → (t.getV 0xF#4).toNat = (s.getV y).toNat / 128) ∧
    t.pc = s.pc + 2 ∧ (∀ z, z ≠ x → z ≠ 0xF#4 → t.getV z = s.getV z) ∧
    t.i = s.i ∧ SameStack s t ∧ SameDisplay s t ∧ SameMem s t ∧ SameRest s t) ∧
  (∀ (s : State) (x y : RegIdx),
    ((shlWith .resultFirst x y s).getV 0xF#4).toNat =
      (if y = x then 2 * (s.getV x).toNat % 256 else (s.getV y).toNat) / 128 ∧
    (x ≠ 0xF#4 → ((shlWith .resultFirst x y s).getV x).toNat = 2 * (s.getV x).toNat % 256) ∧
    (∀ z, z ≠ x → z ≠ 0xF#4 → (shlWith .resultFirst x y s).getV z = s.getV z))

/-- Tier 1. `Cxnn` takes one draw and writes it masked with nn, once; nothing is assumed of the draw (R169; the draw is the free
value of log entry 2). -/
def Obligations.RndMasksDraw : Prop :=
  ∀ (s : State) (x : RegIdx) (nn : Byte), ∃ t, exec (.rnd x nn) s = .next t ∧
    t.getV x = Config.randByte s.draws &&& nn ∧ t.draws = s.draws + 1 ∧ t.pc = s.pc + 2 ∧
    SameVBut x s t ∧ t.i = s.i ∧ SameStack s t ∧ SameDisplay s t ∧ SameMem s t ∧ t.fault = s.fault

/-- Tier 2. No instruction writes a V register but those R22 lists; `Fx65` never writes VF (the spec's inference, R22). -/
def Obligations.WritersOfV : Prop :=
  (∀ (i : Instr) (s t : State) (y : RegIdx), writesV i y = false → exec i s = .next t → t.getV y = s.getV y) ∧
  (∀ (s t : State) (x : RegIdx), exec (.load x) s = .next t → t.getV 0xF#4 = s.getV 0xF#4)

/-! ## Index register and block transfer (spec/43_index_memory.md) -/

/-- Tier 1. `Annn` sets I to nnn (R190). -/
def Obligations.LdILoads : Prop :=
  ∀ (s : State) (nnn : Addr12), ∃ t, exec (.ldI nnn) s = .next t ∧ t.i.toNat = nnn.toNat ∧ t.pc = s.pc + 2 ∧ OnlyPcI s t

/-- Tier 1. `Fx15` adds the literal x to I (V[x] under FX15_ADDEND = Register); a sum above 0xFFFF raises IndexOverflow with
its pc and word (R191). -/
def Obligations.AddILitAdds : Prop :=
  (∀ (s : State) (x : RegIdx), s.i.toNat + x.toNat ≤ 0xFFFF → ∃ t, exec (.addILit x) s = .next t ∧
    t.i.toNat = s.i.toNat + x.toNat ∧ t.pc = s.pc + 2 ∧ OnlyPcI s t) ∧
  (∀ (s : State) (x : RegIdx), 0xFFFF < s.i.toNat + x.toNat →
    Raises (.indexOverflow s.pc (BitVec.ofNat 16 (0xF015 + 256 * x.toNat))) s (exec (.addILit x) s)) ∧
  (∀ (s : State) (x : RegIdx), s.i.toNat + (s.getV x).toNat ≤ 0xFFFF → ∃ t, addILitWith .fault .register x s = .next t ∧
    t.i.toNat = s.i.toNat + (s.getV x).toNat ∧ t.pc = s.pc + 2 ∧ OnlyPcI s t) ∧
  (∀ (s : State) (x : RegIdx), 0xFFFF < s.i.toNat + (s.getV x).toNat →
    Raises (.indexOverflow s.pc (BitVec.ofNat 16 (0xF015 + 256 * x.toNat))) s (addILitWith .fault .register x s))

/-- Tier 1. `Fx1E` adds V[x] to I; a sum above 0xFFFF raises IndexOverflow with its pc and word; VF is never written (R192). -/
def Obligations.AddIRegAdds : Prop :=
  (∀ (s : State) (x : RegIdx), s.i.toNat + (s.getV x).toNat ≤ 0xFFFF → ∃ t, exec (.addIReg x) s = .next t ∧
    t.i.toNat = s.i.toNat + (s.getV x).toNat ∧ t.pc = s.pc + 2 ∧ OnlyPcI s t) ∧
  (∀ (s : State) (x : RegIdx), 0xFFFF < s.i.toNat + (s.getV x).toNat →
    Raises (.indexOverflow s.pc (BitVec.ofNat 16 (0xF01E + 256 * x.toNat))) s (exec (.addIReg x) s))

/-- Tier 1. `Fx29` adds 5 * V[x] to I, V[x] whole; a sum above 0xFFFF raises IndexOverflow with its pc and word (R193). -/
def Obligations.LdFAddsGlyphOffset : Prop :=
  (∀ (s : State) (x : RegIdx), s.i.toNat + 5 * (s.getV x).toNat ≤ 0xFFFF → ∃ t, exec (.ldF x) s = .next t ∧
    t.i.toNat = s.i.toNat + 5 * (s.getV x).toNat ∧ t.pc = s.pc + 2 ∧ OnlyPcI s t) ∧
  (∀ (s : State) (x : RegIdx), 0xFFFF < s.i.toNat + 5 * (s.getV x).toNat →
    Raises (.indexOverflow s.pc (BitVec.ofNat 16 (0xF029 + 256 * x.toNat))) s (exec (.ldF x) s))

/-- Tier 1. `IAdd` under both values of I_OVERFLOW, for any addend the three instructions can have (R196). -/
def Obligations.IndexAddition : Prop :=
  (∀ (rule : OverflowRule) (i : Instr) (k : Nat) (s : State), s.i.toNat + k ≤ 0xFFFF →
    ∃ t, indexAddWith rule i k s = .next t ∧ t.i.toNat = s.i.toNat + k ∧ t.pc = s.pc + 2 ∧ OnlyPcI s t) ∧
  (∀ (i : Instr) (k : Nat) (s : State), k ≤ 1275 → 0xFFFF < s.i.toNat + k →
    Raises (.indexOverflow s.pc (encode i)) s (indexAddWith .fault i k s)) ∧
  (∀ (i : Instr) (k : Nat) (s : State), k ≤ 1275 → 0xFFFF < s.i.toNat + k →
    ∃ t, indexAddWith .wrap i k s = .next t ∧ t.i.toNat = s.i.toNat + k - 0x10000 ∧ t.pc = s.pc + 2 ∧ OnlyPcI s t)

/-- Tier 2. `Fx55` in range stores V[0]..V[x-1] at I, I+1, .. and leaves V[x], I and every other byte as they were; x = 0 stores
nothing at any I; a block that passes the end of memory raises MemWriteOutOfRange with the lowest such address, and no byte of it
is written (R194, R222). That the stored bytes read back needs memory in canonical form, which `StepKeepsInvariant` keeps. -/
def Obligations.StoreWritesBlock : Prop :=
  (∀ (s : State) (x : RegIdx), x.toNat = 0 ∨ s.i.toNat + x.toNat ≤ 4096 → ∃ t, exec (.store x) s = .next t ∧
    (Memory.wf s.mem → ∀ k : RegIdx, k.toNat < x.toNat → t.mem.read (s.i.toNat + k.toNat) = s.getV k) ∧
    (∀ a, a < s.i.toNat ∨ s.i.toNat + x.toNat ≤ a → t.mem.read a = s.mem.read a) ∧
    t.pc = s.pc + 2 ∧ SameV s t ∧ t.i = s.i ∧ SameStack s t ∧ SameDisplay s t ∧ SameRest s t) ∧
  (∀ (s : State) (x : RegIdx), x.toNat ≠ 0 → 4096 < s.i.toNat + x.toNat →
    Raises (.memWriteOutOfRange s.pc (max s.i.toNat 4096)) s (exec (.store x) s))

/-- Tier 2. `Fx65` in range loads V[0]..V[x-1] from I, I+1, ..; V[x], every register above it and I keep their values; x = 0 loads
nothing at any I; a block that passes the end of memory raises MemReadOutOfRange with the lowest such address, before any
register is written (R195). -/
def Obligations.LoadReadsBlock : Prop :=
  (∀ (s : State) (x : RegIdx), x.toNat = 0 ∨ s.i.toNat + x.toNat ≤ 4096 → ∃ t, exec (.load x) s = .next t ∧
    (∀ k : RegIdx, k.toNat < x.toNat → t.getV k = s.mem.read (s.i.toNat + k.toNat)) ∧
    (∀ k : RegIdx, x.toNat ≤ k.toNat → t.getV k = s.getV k) ∧
    t.pc = s.pc + 2 ∧ t.i = s.i ∧ SameStack s t ∧ SameDisplay s t ∧ SameMem s t ∧ SameRest s t) ∧
  (∀ (s : State) (x : RegIdx), x.toNat ≠ 0 → 4096 < s.i.toNat + x.toNat →
    Raises (.memReadOutOfRange s.pc (max s.i.toNat 4096)) s (exec (.load x) s))

/-- Tier 2. Only `Annn`, `Fx15`, `Fx1E` and `Fx29` write I (R25): in particular `Dxyn`, `Fx55` and `Fx65` leave it. -/
def Obligations.WritersOfI : Prop :=
  ∀ (i : Instr) (s t : State), writesI i = false → exec i s = .next t → t.i = s.i

/-- Tier 2. Only `Fx55` writes memory (R50). -/
def Obligations.OnlyStoreWritesMemory : Prop :=
  ∀ (i : Instr) (s t : State), (∀ x, i ≠ .store x) → exec i s = .next t → SameMem s t
end

