-- ==== Sys2Proof/Laws/Decode.lean ====
section
/-! SUPPORT. The fields of an encoded word, and its bytes (spec/30_encoding.md R75, R76). -/

namespace Sys2Proof

section
variable (o : BitVec 4) (x y n : BitVec 4) (nn : Byte) (nnn : Addr12)

/-- The value of a concatenation, with the first part in the high bits (spec/00_scope.md R10). -/
theorem toNat_append_eq {j k : Nat} (a : BitVec j) (b : BitVec k) : (a ++ b).toNat = a.toNat * 2 ^ k + b.toNat := by
  rw [BitVec.toNat_append, ← Nat.shiftLeft_add_eq_or_of_lt b.isLt, Nat.shiftLeft_eq]

theorem toNat_formA : (formA o nnn).toNat = o.toNat * 4096 + nnn.toNat := toNat_append_eq o nnn

theorem toNat_formXB : (formXB o x nn).toNat = o.toNat * 4096 + (x.toNat * 256 + nn.toNat) :=
  (toNat_append_eq o (x ++ nn)).trans (congrArg (o.toNat * 4096 + ·) (toNat_append_eq x nn))

theorem toNat_formXYN : (formXYN o x y n).toNat = o.toNat * 4096 + (x.toNat * 256 + (y.toNat * 16 + n.toNat)) :=
  (toNat_formXB o x (y ++ n)).trans (congrArg (fun k => o.toNat * 4096 + (x.toNat * 256 + k)) (toNat_append_eq y n))

theorem toNat_fieldOp (w : Word) : (fieldOp w).toNat = w.toNat / 4096 := by
  have := w.isLt
  simp [fieldOp, Nat.shiftRight_eq_div_pow]
  omega

theorem toNat_fieldX (w : Word) : (fieldX w).toNat = w.toNat / 256 % 16 := by
  simp [fieldX, Nat.shiftRight_eq_div_pow]

theorem toNat_fieldY (w : Word) : (fieldY w).toNat = w.toNat / 16 % 16 := by
  simp [fieldY, Nat.shiftRight_eq_div_pow]

theorem toNat_fieldN (w : Word) : (fieldN w).toNat = w.toNat % 16 := by simp [fieldN]

theorem toNat_fieldNN (w : Word) : (fieldNN w).toNat = w.toNat % 256 := by simp [fieldNN]

theorem toNat_fieldNNN (w : Word) : (fieldNNN w).toNat = w.toNat % 4096 := by simp [fieldNNN]

@[simp] theorem fieldOp_formA : fieldOp (formA o nnn) = o := by
  apply BitVec.eq_of_toNat_eq
  rw [toNat_fieldOp, toNat_formA]
  have := o.isLt; have := nnn.isLt
  omega

@[simp] theorem fieldNNN_formA : fieldNNN (formA o nnn) = nnn := by
  apply BitVec.eq_of_toNat_eq
  rw [toNat_fieldNNN, toNat_formA]
  have := nnn.isLt
  omega

@[simp] theorem fieldOp_formXB : fieldOp (formXB o x nn) = o := by
  apply BitVec.eq_of_toNat_eq
  rw [toNat_fieldOp, toNat_formXB]
  have := o.isLt; have := x.isLt; have := nn.isLt
  omega

@[simp] theorem fieldX_formXB : fieldX (formXB o x nn) = x := by
  apply BitVec.eq_of_toNat_eq
  rw [toNat_fieldX, toNat_formXB]
  have := o.isLt; have := x.isLt; have := nn.isLt
  omega

@[simp] theorem fieldNN_formXB : fieldNN (formXB o x nn) = nn := by
  apply BitVec.eq_of_toNat_eq
  rw [toNat_fieldNN, toNat_formXB]
  have := nn.isLt
  omega

@[simp] theorem fieldOp_formXYN : fieldOp (formXYN o x y n) = o := by
  apply BitVec.eq_of_toNat_eq
  rw [toNat_fieldOp, toNat_formXYN]
  have := o.isLt; have := x.isLt; have := y.isLt; have := n.isLt
  omega

@[simp] theorem fieldX_formXYN : fieldX (formXYN o x y n) = x := by
  apply BitVec.eq_of_toNat_eq
  rw [toNat_fieldX, toNat_formXYN]
  have := x.isLt; have := y.isLt; have := n.isLt
  omega

@[simp] theorem fieldY_formXYN : fieldY (formXYN o x y n) = y := by
  apply BitVec.eq_of_toNat_eq
  rw [toNat_fieldY, toNat_formXYN]
  have := y.isLt; have := n.isLt
  omega

@[simp] theorem fieldN_formXYN : fieldN (formXYN o x y n) = n := by
  apply BitVec.eq_of_toNat_eq
  rw [toNat_fieldN, toNat_formXYN]
  have := n.isLt
  omega

/-- The two bytes of a word, put together again, are the word (R51). -/
@[simp] theorem highByte_append_lowByte (w : Word) : highByte w ++ lowByte w = w := by
  apply BitVec.eq_of_toNat_eq
  have hw := w.isLt
  rw [toNat_append_eq]
  simp [highByte, lowByte, Nat.shiftRight_eq_div_pow]
  omega

/-- Decoding the bytes of a word is decoding the word. -/
theorem decode_wordBytes (w : Word) (rest : List Byte) :
    decode (wordBytes w ++ rest) = match decodeWord w with | some i => .instr i rest | none => .unrecognized w := by
  cases h : decodeWord w <;>
    simp only [wordBytes, List.cons_append, List.nil_append, decode, highByte_append_lowByte, h]

/-- The table's word of 16 bits is the word itself. -/
@[simp] theorem tableWord_toNat (w : Word) : tableWord 16 w.toNat = w := by
  apply BitVec.eq_of_toNat_eq
  have := w.isLt
  simp [tableWord]
  omega

/-- The host's view of the decoder is the decoder. -/
theorem decodeTableWord_eq (w : Word) : decodeTableWord 16 w.toNat = decodeWord w := by
  have := decode_wordBytes w []
  rw [List.append_nil] at this
  rw [decodeTableWord, tableWord_toNat, this]
  cases decodeWord w <;> rfl

end

end Sys2Proof
end

