-- ==== Sys2Proof/Laws/State.lean ====
section
/-! SUPPORT. One lemma per field of State per update, all by rfl, so that no later proof unfolds a record update; and the same
for the states that end a draw, a draw of RAND and a host command. -/

namespace Sys2Proof.Machine

variable (s : State)

/-! `State.setV` -/

@[simp] theorem State.setV_v (x : RegIdx) (b : Byte) : (s.setV x b).v = writeReg s.v x b := rfl
@[simp] theorem State.setV_i (x : RegIdx) (b : Byte) : (s.setV x b).i = s.i := rfl
@[simp] theorem State.setV_pc (x : RegIdx) (b : Byte) : (s.setV x b).pc = s.pc := rfl
@[simp] theorem State.setV_stack (x : RegIdx) (b : Byte) : (s.setV x b).stack = s.stack := rfl
@[simp] theorem State.setV_sp (x : RegIdx) (b : Byte) : (s.setV x b).sp = s.sp := rfl
@[simp] theorem State.setV_fb (x : RegIdx) (b : Byte) : (s.setV x b).fb = s.fb := rfl
@[simp] theorem State.setV_dirty (x : RegIdx) (b : Byte) : (s.setV x b).dirty = s.dirty := rfl
@[simp] theorem State.setV_mem (x : RegIdx) (b : Byte) : (s.setV x b).mem = s.mem := rfl
@[simp] theorem State.setV_fault (x : RegIdx) (b : Byte) : (s.setV x b).fault = s.fault := rfl
@[simp] theorem State.setV_draws (x : RegIdx) (b : Byte) : (s.setV x b).draws = s.draws := rfl

/-! `State.setI` -/

@[simp] theorem State.setI_v (w : Word) : (s.setI w).v = s.v := rfl
@[simp] theorem State.setI_i (w : Word) : (s.setI w).i = w := rfl
@[simp] theorem State.setI_pc (w : Word) : (s.setI w).pc = s.pc := rfl
@[simp] theorem State.setI_stack (w : Word) : (s.setI w).stack = s.stack := rfl
@[simp] theorem State.setI_sp (w : Word) : (s.setI w).sp = s.sp := rfl
@[simp] theorem State.setI_fb (w : Word) : (s.setI w).fb = s.fb := rfl
@[simp] theorem State.setI_dirty (w : Word) : (s.setI w).dirty = s.dirty := rfl
@[simp] theorem State.setI_mem (w : Word) : (s.setI w).mem = s.mem := rfl
@[simp] theorem State.setI_fault (w : Word) : (s.setI w).fault = s.fault := rfl
@[simp] theorem State.setI_draws (w : Word) : (s.setI w).draws = s.draws := rfl
@[simp] theorem State.setI_getV (w : Word) (y : RegIdx) : (s.setI w).getV y = s.getV y := rfl

/-! `State.setPc` -/

@[simp] theorem State.setPc_v (w : Word) : (s.setPc w).v = s.v := rfl
@[simp] theorem State.setPc_i (w : Word) : (s.setPc w).i = s.i := rfl
@[simp] theorem State.setPc_pc (w : Word) : (s.setPc w).pc = w := rfl
@[simp] theorem State.setPc_stack (w : Word) : (s.setPc w).stack = s.stack := rfl
@[simp] theorem State.setPc_sp (w : Word) : (s.setPc w).sp = s.sp := rfl
@[simp] theorem State.setPc_fb (w : Word) : (s.setPc w).fb = s.fb := rfl
@[simp] theorem State.setPc_dirty (w : Word) : (s.setPc w).dirty = s.dirty := rfl
@[simp] theorem State.setPc_mem (w : Word) : (s.setPc w).mem = s.mem := rfl
@[simp] theorem State.setPc_fault (w : Word) : (s.setPc w).fault = s.fault := rfl
@[simp] theorem State.setPc_draws (w : Word) : (s.setPc w).draws = s.draws := rfl
@[simp] theorem State.setPc_getV (w : Word) (y : RegIdx) : (s.setPc w).getV y = s.getV y := rfl

/-! `State.advance` -/

@[simp] theorem State.advance_v : (s.advance).v = s.v := rfl
@[simp] theorem State.advance_i : (s.advance).i = s.i := rfl
@[simp] theorem State.advance_pc : (s.advance).pc = s.pc + 2#16 := rfl
@[simp] theorem State.advance_stack : (s.advance).stack = s.stack := rfl
@[simp] theorem State.advance_sp : (s.advance).sp = s.sp := rfl
@[simp] theorem State.advance_fb : (s.advance).fb = s.fb := rfl
@[simp] theorem State.advance_dirty : (s.advance).dirty = s.dirty := rfl
@[simp] theorem State.advance_mem : (s.advance).mem = s.mem := rfl
@[simp] theorem State.advance_fault : (s.advance).fault = s.fault := rfl
@[simp] theorem State.advance_draws : (s.advance).draws = s.draws := rfl
@[simp] theorem State.advance_getV (y : RegIdx) : (s.advance).getV y = s.getV y := rfl

/-! `State.skip` -/

@[simp] theorem State.skip_v : (s.skip).v = s.v := rfl
@[simp] theorem State.skip_i : (s.skip).i = s.i := rfl
@[simp] theorem State.skip_pc : (s.skip).pc = s.pc + 2#16 := rfl
@[simp] theorem State.skip_stack : (s.skip).stack = s.stack := rfl
@[simp] theorem State.skip_sp : (s.skip).sp = s.sp := rfl
@[simp] theorem State.skip_fb : (s.skip).fb = s.fb := rfl
@[simp] theorem State.skip_dirty : (s.skip).dirty = s.dirty := rfl
@[simp] theorem State.skip_mem : (s.skip).mem = s.mem := rfl
@[simp] theorem State.skip_fault : (s.skip).fault = s.fault := rfl
@[simp] theorem State.skip_draws : (s.skip).draws = s.draws := rfl
@[simp] theorem State.skip_getV (y : RegIdx) : (s.skip).getV y = s.getV y := rfl

/-! `State.push` -/

@[simp] theorem State.push_v (w : Word) : (s.push w).v = s.v := rfl
@[simp] theorem State.push_i (w : Word) : (s.push w).i = s.i := rfl
@[simp] theorem State.push_pc (w : Word) : (s.push w).pc = s.pc := rfl
@[simp] theorem State.push_stack (w : Word) : (s.push w).stack = s.stack.setIfInBounds s.sp.val w := rfl
@[simp] theorem State.push_sp (w : Word) : (s.push w).sp = Fin.ofNat (stackEntries + 1) (s.sp.val + 1) := rfl
@[simp] theorem State.push_fb (w : Word) : (s.push w).fb = s.fb := rfl
@[simp] theorem State.push_dirty (w : Word) : (s.push w).dirty = s.dirty := rfl
@[simp] theorem State.push_mem (w : Word) : (s.push w).mem = s.mem := rfl
@[simp] theorem State.push_fault (w : Word) : (s.push w).fault = s.fault := rfl
@[simp] theorem State.push_draws (w : Word) : (s.push w).draws = s.draws := rfl
@[simp] theorem State.push_getV (w : Word) (y : RegIdx) : (s.push w).getV y = s.getV y := rfl

/-! `State.drop` -/

@[simp] theorem State.drop_v : (s.drop).v = s.v := rfl
@[simp] theorem State.drop_i : (s.drop).i = s.i := rfl
@[simp] theorem State.drop_pc : (s.drop).pc = s.pc := rfl
@[simp] theorem State.drop_stack : (s.drop).stack = s.stack := rfl
@[simp] theorem State.drop_fb : (s.drop).fb = s.fb := rfl
@[simp] theorem State.drop_dirty : (s.drop).dirty = s.dirty := rfl
@[simp] theorem State.drop_mem : (s.drop).mem = s.mem := rfl
@[simp] theorem State.drop_fault : (s.drop).fault = s.fault := rfl
@[simp] theorem State.drop_draws : (s.drop).draws = s.draws := rfl
@[simp] theorem State.drop_getV (y : RegIdx) : (s.drop).getV y = s.getV y := rfl

@[simp] theorem State.drop_sp : s.drop.sp.val = s.sp.val - 1 := rfl

/-! `State.skipIf` -/

@[simp] theorem State.skipIf_v (c : Bool) : (s.skipIf c).v = s.v := by cases c <;> rfl
@[simp] theorem State.skipIf_i (c : Bool) : (s.skipIf c).i = s.i := by cases c <;> rfl
@[simp] theorem State.skipIf_pc (c : Bool) : (s.skipIf c).pc = if c then s.pc + 2#16 else s.pc := by cases c <;> rfl
@[simp] theorem State.skipIf_stack (c : Bool) : (s.skipIf c).stack = s.stack := by cases c <;> rfl
@[simp] theorem State.skipIf_sp (c : Bool) : (s.skipIf c).sp = s.sp := by cases c <;> rfl
@[simp] theorem State.skipIf_fb (c : Bool) : (s.skipIf c).fb = s.fb := by cases c <;> rfl
@[simp] theorem State.skipIf_dirty (c : Bool) : (s.skipIf c).dirty = s.dirty := by cases c <;> rfl
@[simp] theorem State.skipIf_mem (c : Bool) : (s.skipIf c).mem = s.mem := by cases c <;> rfl
@[simp] theorem State.skipIf_fault (c : Bool) : (s.skipIf c).fault = s.fault := by cases c <;> rfl
@[simp] theorem State.skipIf_draws (c : Bool) : (s.skipIf c).draws = s.draws := by cases c <;> rfl
@[simp] theorem State.skipIf_getV (c : Bool) (y : RegIdx) : (s.skipIf c).getV y = s.getV y := by cases c <;> rfl

/-! `finishDraw` -/

@[simp] theorem finishDraw_v (d : Framebuffer × Bool) : (finishDraw d s).v = writeReg s.v vF (drawFlag d.2) := rfl
@[simp] theorem finishDraw_i (d : Framebuffer × Bool) : (finishDraw d s).i = s.i := rfl
@[simp] theorem finishDraw_pc (d : Framebuffer × Bool) : (finishDraw d s).pc = s.pc := rfl
@[simp] theorem finishDraw_stack (d : Framebuffer × Bool) : (finishDraw d s).stack = s.stack := rfl
@[simp] theorem finishDraw_sp (d : Framebuffer × Bool) : (finishDraw d s).sp = s.sp := rfl
@[simp] theorem finishDraw_fb (d : Framebuffer × Bool) : (finishDraw d s).fb = d.1 := rfl
@[simp] theorem finishDraw_dirty (d : Framebuffer × Bool) : (finishDraw d s).dirty = true := rfl
@[simp] theorem finishDraw_mem (d : Framebuffer × Bool) : (finishDraw d s).mem = s.mem := rfl
@[simp] theorem finishDraw_fault (d : Framebuffer × Bool) : (finishDraw d s).fault = s.fault := rfl
@[simp] theorem finishDraw_draws (d : Framebuffer × Bool) : (finishDraw d s).draws = s.draws := rfl
@[simp] theorem finishDraw_getV (d : Framebuffer × Bool) (y : RegIdx) : (finishDraw d s).getV y = (s.setV vF (drawFlag d.2)).getV y := rfl

/-! `drawRand` -/

@[simp] theorem drawRand_byte : (drawRand s).1 = Config.randByte s.draws := rfl
@[simp] theorem drawRand_v : (drawRand s).2.v = s.v := rfl
@[simp] theorem drawRand_i : (drawRand s).2.i = s.i := rfl
@[simp] theorem drawRand_pc : (drawRand s).2.pc = s.pc := rfl
@[simp] theorem drawRand_stack : (drawRand s).2.stack = s.stack := rfl
@[simp] theorem drawRand_sp : (drawRand s).2.sp = s.sp := rfl
@[simp] theorem drawRand_fb : (drawRand s).2.fb = s.fb := rfl
@[simp] theorem drawRand_dirty : (drawRand s).2.dirty = s.dirty := rfl
@[simp] theorem drawRand_mem : (drawRand s).2.mem = s.mem := rfl
@[simp] theorem drawRand_fault : (drawRand s).2.fault = s.fault := rfl
@[simp] theorem drawRand_draws : (drawRand s).2.draws = s.draws + 1 := rfl
@[simp] theorem drawRand_getV (y : RegIdx) : (drawRand s).2.getV y = s.getV y := rfl

/-! `clearDirty` -/

@[simp] theorem clearDirty_v : (clearDirty s).v = s.v := rfl
@[simp] theorem clearDirty_i : (clearDirty s).i = s.i := rfl
@[simp] theorem clearDirty_pc : (clearDirty s).pc = s.pc := rfl
@[simp] theorem clearDirty_stack : (clearDirty s).stack = s.stack := rfl
@[simp] theorem clearDirty_sp : (clearDirty s).sp = s.sp := rfl
@[simp] theorem clearDirty_fb : (clearDirty s).fb = s.fb := rfl
@[simp] theorem clearDirty_dirty : (clearDirty s).dirty = false := rfl
@[simp] theorem clearDirty_mem : (clearDirty s).mem = s.mem := rfl
@[simp] theorem clearDirty_fault : (clearDirty s).fault = s.fault := rfl
@[simp] theorem clearDirty_draws : (clearDirty s).draws = s.draws := rfl
@[simp] theorem clearDirty_getV (y : RegIdx) : (clearDirty s).getV y = s.getV y := rfl

/-! `placeWord` -/

@[simp] theorem placeWord_v (w : Word) : (placeWord s w).v = s.v := rfl
@[simp] theorem placeWord_i (w : Word) : (placeWord s w).i = s.i := rfl
@[simp] theorem placeWord_pc (w : Word) : (placeWord s w).pc = s.pc := rfl
@[simp] theorem placeWord_stack (w : Word) : (placeWord s w).stack = s.stack := rfl
@[simp] theorem placeWord_sp (w : Word) : (placeWord s w).sp = s.sp := rfl
@[simp] theorem placeWord_fb (w : Word) : (placeWord s w).fb = s.fb := rfl
@[simp] theorem placeWord_dirty (w : Word) : (placeWord s w).dirty = s.dirty := rfl
@[simp] theorem placeWord_fault (w : Word) : (placeWord s w).fault = s.fault := rfl
@[simp] theorem placeWord_draws (w : Word) : (placeWord s w).draws = s.draws := rfl

end Sys2Proof.Machine
end

