-- ==== Sys2Proof/Laws/Registers.lean ====
section
/-! SUPPORT. The register file: a read after a write (spec/10_state.md R21: no register is hard-wired). -/

namespace Sys2Proof.Machine

@[simp] theorem readReg_writeReg_same (v : Vector Byte numV) (x : RegIdx) (b : Byte) : readReg (writeReg v x b) x = b := by
  simp [readReg, writeReg]

theorem readReg_writeReg_of_ne (v : Vector Byte numV) {x y : RegIdx} (b : Byte) (h : y ≠ x) :
    readReg (writeReg v x b) y = readReg v y := by
  have hne : x.toNat ≠ y.toNat := fun e => h (BitVec.eq_of_toNat_eq e.symm)
  simp [readReg, writeReg, Vector.getElem_set_ne, hne]

theorem readReg_writeReg (v : Vector Byte numV) (x y : RegIdx) (b : Byte) :
    readReg (writeReg v x b) y = if y = x then b else readReg v y := by
  split
  · next h => subst h; simp
  · next h => exact readReg_writeReg_of_ne v b h

@[simp] theorem State.getV_setV_same (s : State) (x : RegIdx) (b : Byte) : (s.setV x b).getV x = b :=
  readReg_writeReg_same _ _ _

theorem State.getV_setV_of_ne (s : State) {x y : RegIdx} (b : Byte) (h : y ≠ x) : (s.setV x b).getV y = s.getV y :=
  readReg_writeReg_of_ne _ _ h

theorem State.getV_setV (s : State) (x y : RegIdx) (b : Byte) :
    (s.setV x b).getV y = if y = x then b else s.getV y :=
  readReg_writeReg _ _ _ _

/-- Two register files that read alike are equal. -/
theorem regs_ext {v w : Vector Byte numV} (h : ∀ x, readReg v x = readReg w x) : v = w := by
  apply Vector.ext
  intro k hk
  have := h (BitVec.ofNat 4 k)
  have hm : k % 16 = k := Nat.mod_eq_of_lt hk
  simpa [readReg, hm] using this

/-- A load's effect on one register: the loaded byte below the count, the old value from it on (spec/43_index_memory.md R195). -/
theorem readReg_loadRegs (m : Memory) (base : Nat) (v : Vector Byte numV) (y : RegIdx) :
    ∀ count, count ≤ 15 →
      readReg (loadRegs m base count v) y = if y.toNat < count then m.read (base + y.toNat) else readReg v y
  | 0, _ => by simp [loadRegs]
  | k + 1, hk => by
    have ih := readReg_loadRegs m base v y k (by omega)
    have hy := y.isLt
    rw [loadRegs, readReg_writeReg, ih]
    by_cases e : y = BitVec.ofNat 4 k
    · have : y.toNat = k := by rw [e]; simp; omega
      have hk' : k % 16 = k := by omega
      simp [e, hk']
    · have : y.toNat ≠ k := by
        intro h; apply e; apply BitVec.eq_of_toNat_eq; simp; omega
      simp only [e, if_false]
      by_cases h : y.toNat < k
      · simp [h, Nat.lt_succ_of_lt h]
      · have h' : ¬ y.toNat < k + 1 := by omega
        simp [h, h']

end Sys2Proof.Machine
end

