-- ==== Sys2Proof/Laws/Memory.lean ====
section
/-! SUPPORT. Memory: a read after a write, and that every memory operation keeps the canonical form `Memory.wf`. -/

namespace Sys2Proof.Machine

/-- A write leaves every other address as it was, in any memory. -/
theorem Memory.read_write_of_ne (m : Memory) {a k : Nat} (b : Byte) (h : k ≠ a) : (m.write a b).read k = m.read k := by
  induction m with
  | nil => simp only [Memory.write]; split <;> simp [Memory.read, h.symm]
  | cons c m ih =>
    simp only [Memory.write]
    split
    · split
      · rfl
      · simp [Memory.read, h.symm]
    · split
      · next e =>
        subst e
        split <;> simp [Memory.read, h.symm]
      · simp [Memory.read, ih]

/-- An address below every listed one is not listed. -/
theorem Memory.read_of_lt {m : Memory} {a : Nat} (h : ∀ c ∈ m, a < c.1) : m.read a = unlistedByte := by
  induction m with
  | nil => rfl
  | cons c m ih =>
    have hc := h c (by simp)
    have : c.1 ≠ a := by omega
    simp [Memory.read, this, ih (fun d hd => h d (by simp [hd]))]

theorem Memory.wf_cons {c : Host.Cell} {m : Memory} :
    Memory.wf (c :: m) ↔ (∀ d ∈ m, c.1 < d.1) ∧ c.1 < memSize ∧ c.2 ≠ unlistedByte ∧ Memory.wf m := by
  constructor
  · rintro ⟨hp, hv⟩
    have hp' := List.pairwise_cons.1 hp
    have hc := hv c (by simp)
    exact ⟨hp'.1, hc.1, hc.2, hp'.2, fun d hd => hv d (by simp [hd])⟩
  · rintro ⟨h1, h2, h3, h4, h5⟩
    refine ⟨List.pairwise_cons.2 ⟨h1, h4⟩, ?_⟩
    intro d hd
    rcases List.mem_cons.1 hd with rfl | hd
    · exact ⟨h2, h3⟩
    · exact h5 d hd

theorem Memory.wf_nil : Memory.wf [] := ⟨List.Pairwise.nil, by simp⟩

/-- A read after a write to the same address gives the value written. -/
theorem Memory.read_write_same {m : Memory} (hm : Memory.wf m) (a : Nat) (b : Byte) : (m.write a b).read a = b := by
  induction m with
  | nil =>
    simp only [Memory.write]
    split
    · next h => simp [Memory.read, h]
    · simp [Memory.read]
  | cons c m ih =>
    obtain ⟨h1, -, -, h4⟩ := Memory.wf_cons.1 hm
    simp only [Memory.write]
    split
    · next hlt =>
      split
      · next hb =>
        rw [hb]
        apply Memory.read_of_lt
        intro d hd
        rcases List.mem_cons.1 hd with rfl | hd
        · exact hlt
        · have := h1 d hd; omega
      · simp [Memory.read]
    · split
      · next he =>
        split
        · next hb =>
          rw [hb]
          apply Memory.read_of_lt
          intro d hd
          have := h1 d hd; omega
        · simp [Memory.read]
      · next hn =>
        have : c.1 ≠ a := fun e => hn e.symm
        simp [Memory.read, this, ih h4]

/-- One lemma for both: what an address reads after a write. -/
theorem Memory.read_write {m : Memory} (hm : Memory.wf m) (a k : Nat) (b : Byte) :
    (m.write a b).read k = if k = a then b else m.read k := by
  split
  · next h => subst h; exact Memory.read_write_same hm _ _
  · next h => exact Memory.read_write_of_ne m b h

/-- A written memory lists the written address, or addresses it listed before. -/
theorem Memory.mem_write {m : Memory} {a : Nat} {b : Byte} {c : Host.Cell} (h : c ∈ m.write a b) :
    (c = (a, b) ∧ b ≠ unlistedByte) ∨ c ∈ m := by
  induction m with
  | nil =>
    simp only [Memory.write] at h
    split at h
    · simp at h
    · next hb => left; simp at h; exact ⟨h, hb⟩
  | cons d m ih =>
    simp only [Memory.write] at h
    split at h
    · split at h
      · right; exact h
      · next hb =>
        rcases List.mem_cons.1 h with rfl | h
        · exact .inl ⟨rfl, hb⟩
        · exact .inr h
    · split at h
      · split at h
        · exact .inr (List.mem_cons_of_mem _ h)
        · next hb =>
          rcases List.mem_cons.1 h with rfl | h
          · exact .inl ⟨rfl, hb⟩
          · exact .inr (List.mem_cons_of_mem _ h)
      · rcases List.mem_cons.1 h with rfl | h
        · exact .inr (by simp)
        · rcases ih h with h | h
          · exact .inl h
          · exact .inr (List.mem_cons_of_mem _ h)

/-- A write inside [0, MEM_SIZE) keeps the canonical form. -/
theorem Memory.wf_write {m : Memory} (hm : Memory.wf m) {a : Nat} (ha : a < memSize) (b : Byte) :
    Memory.wf (m.write a b) := by
  induction m with
  | nil =>
    simp only [Memory.write]
    split
    · exact Memory.wf_nil
    · next hb => exact Memory.wf_cons.2 ⟨by simp, ha, hb, Memory.wf_nil⟩
  | cons c m ih =>
    obtain ⟨h1, h2, h3, h4⟩ := Memory.wf_cons.1 hm
    simp only [Memory.write]
    split
    · next hlt =>
      split
      · exact hm
      · next hb =>
        refine Memory.wf_cons.2 ⟨?_, ha, hb, hm⟩
        intro d hd
        rcases List.mem_cons.1 hd with rfl | hd
        · exact hlt
        · have := h1 d hd
          show a < d.1
          omega
    · split
      · next he =>
        split
        · exact h4
        · next hb =>
          refine Memory.wf_cons.2 ⟨?_, ha, hb, h4⟩
          intro d hd
          have := h1 d hd
          show a < d.1
          omega
      · next hge hne =>
        refine Memory.wf_cons.2 ⟨?_, h2, h3, ih h4⟩
        intro d hd
        rcases Memory.mem_write hd with ⟨rfl, -⟩ | hd
        · show c.1 < a
          omega
        · exact h1 d hd

/-- The check of a block access (spec/20_memory.md R53): no address is out of range exactly when the block is empty or ends
inside memory. -/
theorem firstOutOfRange_eq_none {base count : Nat} :
    firstOutOfRange base count = none ↔ count = 0 ∨ base + count ≤ memSize := by
  simp only [firstOutOfRange, List.find?_eq_none, List.mem_map, List.mem_range]
  constructor
  · intro h
    rcases Nat.eq_zero_or_pos count with h0 | h0
    · exact .inl h0
    · have := h (base + (count - 1)) ⟨count - 1, by omega, rfl⟩
      simp only [decide_eq_true_eq] at this
      exact .inr (by omega)
  · rintro h a ⟨k, hk, rfl⟩
    simp only [decide_eq_true_eq]
    omega

/-- The address a failing check reports: in the block, out of range, and the lowest such address (R221, R222, R230). -/
theorem firstOutOfRange_eq_some {base count a : Nat} (h : firstOutOfRange base count = some a) :
    memSize ≤ a ∧ base ≤ a ∧ a < base + count ∧ ∀ k, base ≤ k → k < a → k < memSize := by
  simp only [firstOutOfRange, List.find?_map, Option.map_eq_some_iff, Function.comp_def] at h
  obtain ⟨k, hk, rfl⟩ := h
  rw [List.find?_range_eq_some] at hk
  obtain ⟨hk, hlt, hlow⟩ := hk
  simp only [decide_eq_true_eq, List.mem_range, Bool.not_eq_true', decide_eq_false_iff_not] at hk hlt hlow
  refine ⟨hk, by omega, by omega, ?_⟩
  intro j hj hja
  have := hlow (j - base) (by omega)
  omega

/-- A block that passes the end of memory is out of range first at MEM_SIZE, or at its base where that lies above (R221, R222). -/
theorem firstOutOfRange_eq_max {base count : Nat} (h0 : count ≠ 0) (h : memSize < base + count) :
    firstOutOfRange base count = some (max base memSize) := by
  cases e : firstOutOfRange base count with
  | none => have := firstOutOfRange_eq_none.1 e; omega
  | some a =>
    obtain ⟨h1, h2, h3, h4⟩ := firstOutOfRange_eq_some e
    congr 1
    rcases Nat.lt_or_ge (max base memSize) a with hlt | hge
    · have := h4 (max base memSize) (by omega) hlt; omega
    · omega

/-- The range check, once: in range, or out of range first at that address. -/
theorem firstOutOfRange_cases (base count : Nat) :
    (firstOutOfRange base count = none ∧ (count = 0 ∨ base + count ≤ memSize)) ∨
    (firstOutOfRange base count = some (max base memSize) ∧ count ≠ 0 ∧ memSize < base + count) := by
  by_cases h : count = 0 ∨ base + count ≤ memSize
  · exact .inl ⟨firstOutOfRange_eq_none.2 h, h⟩
  · exact .inr ⟨firstOutOfRange_eq_max (by omega) (by omega), by omega, by omega⟩

/-- A store's effect on one address (spec/43_index_memory.md R194). -/
theorem storeRegs_spec (v : Vector Byte numV) (base : Nat) {m : Memory} (hm : Memory.wf m) :
    ∀ count, base + count ≤ memSize → count ≤ 15 →
      Memory.wf (storeRegs v base count m) ∧
      ∀ a, (storeRegs v base count m).read a =
        if base ≤ a ∧ a < base + count then readReg v (BitVec.ofNat 4 (a - base)) else m.read a
  | 0, _, _ => ⟨hm, fun a => by simp [storeRegs]⟩
  | k + 1, h1, h2 => by
    obtain ⟨hw, hr⟩ := storeRegs_spec v base hm k (by omega) (by omega)
    refine ⟨Memory.wf_write hw (by omega) _, ?_⟩
    intro a
    rw [storeRegs, Memory.read_write hw, hr]
    by_cases e : a = base + k
    · subst e
      have : base ≤ base + k ∧ base + k < base + (k + 1) := by omega
      simp [this]
    · by_cases e' : base ≤ a ∧ a < base + k
      · have : base ≤ a ∧ a < base + (k + 1) := by omega
        simp [e, e', this]
      · have : ¬ (base ≤ a ∧ a < base + (k + 1)) := by omega
        simp only [e, e', this, if_false]

/-- A store leaves every address outside its block as it was, in any memory. -/
theorem storeRegs_outside (v : Vector Byte numV) (base : Nat) (m : Memory) {a : Nat} :
    ∀ count, ¬ (base ≤ a ∧ a < base + count) → (storeRegs v base count m).read a = m.read a
  | 0, _ => rfl
  | k + 1, h => by
    rw [storeRegs, Memory.read_write_of_ne _ _ (by omega)]
    exact storeRegs_outside v base m k (by omega)

/-- Storing no register changes nothing. -/
@[simp] theorem storeRegs_zero (v : Vector Byte numV) (base : Nat) (m : Memory) : storeRegs v base 0 m = m := rfl

/-- Loading no register changes nothing. -/
@[simp] theorem loadRegs_zero (m : Memory) (base : Nat) (v : Vector Byte numV) : loadRegs m base 0 v = v := rfl

/-- Loading an image keeps the canonical form. -/
theorem wf_loadImage (img : List Byte) : ∀ (base : Nat) (m : Memory), Memory.wf m → base + img.length ≤ memSize →
    Memory.wf (loadImage base img m) := by
  induction img with
  | nil => intro _ _ h _; exact h
  | cons b bs ih =>
    intro base m h hl
    simp only [List.length_cons] at hl
    exact ih (base + 1) _ (Memory.wf_write h (by omega) b) (by omega)

/-- Placing a byte keeps the canonical form at every address. -/
theorem wf_placeByte {m : Memory} (hm : Memory.wf m) (a : Nat) (b : Byte) : Memory.wf (placeByte m a b) := by
  unfold placeByte
  split
  · next h => exact Memory.wf_write hm h b
  · exact hm

/-- Reset memory is in canonical form. -/
theorem wf_reset : Memory.wf State.reset.mem := Memory.wf_nil

end Sys2Proof.Machine
end

