-- ==== Sys2Proof/Laws/Display.lean ====
section
/-! SUPPORT. The framebuffer: a pixel after a write, and what one toggle does (spec/41_display.md R135, R136). -/

namespace Sys2Proof.Machine

theorem Framebuffer.pixel_setPixel (fb : Framebuffer) (c c' : Fin fbW) (r r' : Fin fbH) (b : Bool) :
    (fb.setPixel c r b).pixel c' r' = if c' = c ∧ r' = r then b else fb.pixel c' r' := by
  unfold Framebuffer.pixel Framebuffer.setPixel
  by_cases hc : c' = c
  · subst hc
    by_cases hr : r' = r
    · subst hr; simp
    · have : r.val ≠ r'.val := fun e => hr (Fin.ext e.symm)
      simp [hr, Vector.getElem_set_ne, this]
  · have : c.val ≠ c'.val := fun e => hc (Fin.ext e.symm)
    simp [hc, Vector.getElem_set_ne, this]

@[simp] theorem pixel_clearFb (c : Fin fbW) (r : Fin fbH) : Framebuffer.pixel clearFb c r = false := by
  simp [Framebuffer.pixel, clearFb]

@[simp] theorem pixel_blank (p : ResetParams) (c : Fin fbW) (r : Fin fbH) : (State.blank p).fb.pixel c r = false := by
  simp [Framebuffer.pixel, State.blank]

/-- A toggle flips exactly when its bit is 1, whatever the pixel held (R136). -/
@[simp] theorem toggle_flip (fb : Framebuffer) (c : Fin fbW) (r : Fin fbH) (bit : Bool) :
    (toggle fb c r bit).2 = bit := by
  unfold toggle
  cases bit <;> simp

/-- A toggle exclusive-ors its bit into its target and leaves every other pixel (R135). -/
theorem toggle_pixel (fb : Framebuffer) (c c' : Fin fbW) (r r' : Fin fbH) (bit : Bool) :
    (toggle fb c r bit).1.pixel c' r' = if c' = c ∧ r' = r then fb.pixel c r ^^ bit else fb.pixel c' r' := by
  unfold toggle
  split
  · next h =>
    split
    · next e => rw [h, e.1, e.2]
    · rfl
  · exact Framebuffer.pixel_setPixel ..

/-- One sprite bit: the framebuffer of its toggle, and the flip or-ed in. -/
theorem drawBit_eq (cx : Nat) (row : Fin fbH) (b : Byte) (acc : Framebuffer × Bool) (c : Nat) :
    drawBit cx row b acc c =
      ((toggle acc.1 (wrapCol (cx + c)) row (spriteBit b c)).1, acc.2 || spriteBit b c) := by
  unfold drawBit
  rw [← toggle_flip acc.1 (wrapCol (cx + c)) row (spriteBit b c)]
  rcases toggle acc.1 (wrapCol (cx + c)) row (spriteBit b c) with ⟨f, k⟩
  simp

/-- The sprite bit of R132 said with a shift. -/
theorem spriteBit_eq_shift (b : Byte) (c : Nat) : spriteBit b c = decide ((b.toNat >>> (7 - c)) % 2 = 1) := by
  simp [spriteBit, BitVec.getLsbD, Nat.testBit]

/-- The 8 columns of a sprite row are distinct, even with wrap (R137). -/
theorem wrapCol_inj {cx a b : Nat} (ha : a < 8) (hb : b < 8) (h : wrapCol (cx + a) = wrapCol (cx + b)) : a = b := by
  have := congrArg Fin.val h; simp only [wrapCol, fbW] at this; omega
/-- The rows of a sprite are distinct, even with wrap (R137). -/
theorem wrapRow_inj {cx a b : Nat} (ha : a < 15) (hb : b < 15) (h : wrapRow (cx + a) = wrapRow (cx + b)) : a = b := by
  have := congrArg Fin.val h; simp only [wrapRow, fbH] at this; omega

open Classical in
/-- The first k bits of one sprite row: which flipped, and every pixel after them. -/
theorem drawBits_spec (cx : Nat) (row : Fin fbH) (b : Byte) (acc : Framebuffer × Bool) : ∀ k, k ≤ 8 →
    (((List.range k).foldl (drawBit cx row b) acc).2 = true ↔ acc.2 = true ∨ ∃ j, j < k ∧ spriteBit b j = true) ∧
    ∀ c r, (((List.range k).foldl (drawBit cx row b) acc).1.pixel c r = true ↔
      (if r = row ∧ ∃ j, j < k ∧ wrapCol (cx + j) = c ∧ spriteBit b j = true then acc.1.pixel c r = false else acc.1.pixel c r = true))
  | 0, _ => by simp
  | k + 1, hk => by
    obtain ⟨i1, i2⟩ := drawBits_spec cx row b acc k (by omega)
    rw [List.range_succ, List.foldl_append, List.foldl_cons, List.foldl_nil, drawBit_eq]
    generalize (List.range k).foldl (drawBit cx row b) acc = A at *
    refine ⟨?_, ?_⟩
    · rw [Bool.or_eq_true, i1, or_assoc]
      apply or_congr_right
      constructor
      · rintro (⟨j, hj, h⟩ | h)
        · exact ⟨j, by omega, h⟩
        · exact ⟨k, by omega, h⟩
      · rintro ⟨j, hj, h⟩
        rcases Nat.lt_succ_iff_lt_or_eq.1 hj with h' | rfl
        · exact .inl ⟨j, h', h⟩
        · exact .inr h
    · intro c r
      rw [toggle_pixel]
      by_cases hcr : c = wrapCol (cx + k) ∧ r = row
      · obtain ⟨rfl, rfl⟩ := hcr
        simp only [and_self, if_true]
        have hno : ¬ ∃ j, j < k ∧ wrapCol (cx + j) = wrapCol (cx + k) ∧ spriteBit b j = true := by
          rintro ⟨j, hj, e, _⟩; have := wrapCol_inj (by omega) (by omega) e; omega
        have i := i2 (wrapCol (cx + k)) r
        simp only [hno, and_false, if_false] at i
        have hex : (∃ j, j < k + 1 ∧ wrapCol (cx + j) = wrapCol (cx + k) ∧ spriteBit b j = true) ↔ spriteBit b k = true := by
          constructor
          · rintro ⟨j, hj, e, h⟩; have := wrapCol_inj (by omega) (by omega) e; rw [← this]; exact h
          · intro h; exact ⟨k, by omega, rfl, h⟩
        simp only [hex, true_and]
        cases hb : spriteBit b k <;> cases ha : A.1.pixel (wrapCol (cx + k)) r <;> simp [ha] at i ⊢ <;> simp [i]
      · simp only [hcr, if_false]
        rw [i2 c r]
        have : (r = row ∧ ∃ j, j < k ∧ wrapCol (cx + j) = c ∧ spriteBit b j = true) ↔ (r = row ∧ ∃ j, j < k + 1 ∧ wrapCol (cx + j) = c ∧ spriteBit b j = true) := by
          constructor
          · rintro ⟨h, j, hj, e⟩; exact ⟨h, j, by omega, e⟩
          · rintro ⟨h, j, hj, e, e'⟩
            rcases Nat.lt_succ_iff_lt_or_eq.1 hj with h' | rfl
            · exact ⟨h, j, h', e, e'⟩
            · exact absurd ⟨e.symm, h⟩ hcr
        simp only [this]

open Classical in
/-- A whole blit of n rows: VF's flip, and every pixel after it (R137, R138). -/
theorem drawRows_spec (m : Memory) (base cx cy : Nat) (fb : Framebuffer) : ∀ n, n ≤ 15 →
    (((List.range n).foldl (drawRow m base cx cy) (fb, false)).2 = true ↔ ∃ r j, r < n ∧ j < 8 ∧ spriteBit (m.read (base + r)) j = true) ∧
    ∀ c r, (((List.range n).foldl (drawRow m base cx cy) (fb, false)).1.pixel c r = true ↔
      (if ∃ row j, row < n ∧ j < 8 ∧ wrapRow (cy + row) = r ∧ wrapCol (cx + j) = c ∧ spriteBit (m.read (base + row)) j = true
        then fb.pixel c r = false else fb.pixel c r = true))
  | 0, _ => by simp
  | n + 1, hn => by
    obtain ⟨i1, i2⟩ := drawRows_spec m base cx cy fb n (by omega)
    rw [List.range_succ, List.foldl_append, List.foldl_cons, List.foldl_nil]
    generalize (List.range n).foldl (drawRow m base cx cy) (fb, false) = A at *
    obtain ⟨j1, j2⟩ := drawBits_spec cx (wrapRow (cy + n)) (m.read (base + n)) A 8 (by omega)
    refine ⟨?_, ?_⟩
    · rw [drawRow, j1, i1]
      constructor
      · rintro (⟨r, j, a, b, c⟩ | ⟨j, a, b⟩)
        · exact ⟨r, j, by omega, b, c⟩
        · exact ⟨n, j, by omega, a, b⟩
      · rintro ⟨r, j, a, b, c⟩
        rcases Nat.lt_succ_iff_lt_or_eq.1 a with h' | rfl
        · exact .inl ⟨r, j, h', b, c⟩
        · exact .inr ⟨j, b, c⟩
    · intro c r
      rw [drawRow, j2]
      have i := i2 c r
      by_cases hr : r = wrapRow (cy + n)
      · subst hr
        have hno : ¬ ∃ row j, row < n ∧ j < 8 ∧ wrapRow (cy + row) = wrapRow (cy + n) ∧ wrapCol (cx + j) = c ∧ spriteBit (m.read (base + row)) j = true := by
          rintro ⟨row, j, a, _, e, _⟩; have := wrapRow_inj (by omega) (by omega) e; omega
        simp only [hno, if_false] at i
        have hex : (∃ row j, row < n + 1 ∧ j < 8 ∧ wrapRow (cy + row) = wrapRow (cy + n) ∧ wrapCol (cx + j) = c ∧ spriteBit (m.read (base + row)) j = true) ↔
            (wrapRow (cy + n) = wrapRow (cy + n) ∧ ∃ j, j < 8 ∧ wrapCol (cx + j) = c ∧ spriteBit (m.read (base + n)) j = true) := by
          constructor
          · rintro ⟨row, j, a, b, e, e'⟩
            have : row = n := wrapRow_inj (by omega) (by omega) e
            subst this; exact ⟨rfl, j, b, e'⟩
          · rintro ⟨_, j, b, e'⟩; exact ⟨n, j, by omega, b, rfl, e'⟩
        simp only [hex, i]
        split
        · rw [← Bool.not_eq_true, i, Bool.not_eq_true]
        · rfl
      · have hno : ¬ (r = wrapRow (cy + n) ∧ ∃ j, j < 8 ∧ wrapCol (cx + j) = c ∧ spriteBit (m.read (base + n)) j = true) := fun h => hr h.1
        have hex : (∃ row j, row < n + 1 ∧ j < 8 ∧ wrapRow (cy + row) = r ∧ wrapCol (cx + j) = c ∧ spriteBit (m.read (base + row)) j = true) ↔
            (∃ row j, row < n ∧ j < 8 ∧ wrapRow (cy + row) = r ∧ wrapCol (cx + j) = c ∧ spriteBit (m.read (base + row)) j = true) := by
          constructor
          · rintro ⟨row, j, a, b, e, e'⟩
            rcases Nat.lt_succ_iff_lt_or_eq.1 a with h' | rfl
            · exact ⟨row, j, h', b, e, e'⟩
            · exact absurd e.symm hr
          · rintro ⟨row, j, a, b⟩; exact ⟨row, j, by omega, b⟩
        simp only [hno, if_false, hex, i]

/-- The sprite's footprint, in the draw's own terms. -/
theorem spriteCovers_iff (m : Memory) (base cx cy n : Nat) (c : Fin fbW) (r : Fin fbH) :
    SpriteCovers m base cx cy n c r ↔ ∃ row j, row < n ∧ j < 8 ∧ wrapRow (cy + row) = r ∧ wrapCol (cx + j) = c ∧ spriteBit (m.read (base + row)) j = true := by
  unfold SpriteCovers
  constructor
  · rintro ⟨row, j, a, b, e, e', h⟩
    exact ⟨row, j, a, b, Fin.ext e', Fin.ext e, by rw [spriteBit_eq_shift, decide_eq_true_eq]; exact h⟩
  · rintro ⟨row, j, a, b, e, e', h⟩
    refine ⟨row, j, a, b, congrArg Fin.val e', congrArg Fin.val e, ?_⟩
    rw [spriteBit_eq_shift, decide_eq_true_eq] at h; exact h

/-- A sprite byte is nonzero exactly when one of its 8 bits is 1 (R138). -/
theorem byte_ne_zero_iff (b : Byte) : b ≠ 0x00#8 ↔ ∃ j, j < 8 ∧ spriteBit b j = true := by
  constructor
  · intro h
    by_contra hc
    apply h
    apply BitVec.eq_of_getLsbD_eq
    intro k hk
    have : ¬ spriteBit b (7 - k) = true := fun h => hc ⟨7 - k, by omega, h⟩
    have e : 7 - (7 - k) = k := by omega
    simp only [spriteBit, e] at this
    simpa using this
  · rintro ⟨j, hj, h⟩ rfl
    simp [spriteBit] at h

end Sys2Proof.Machine
end

