-- ==== Sys2Proof/Laws/Exec.lean ====
section
/-! SUPPORT. For each shared operation, once, everything it can do: the provers cite these and do not unfold it. -/

namespace Sys2Proof.Machine

variable {s t : State}

/-- Taking a fault latches it and leaves everything else (spec/60_exceptions.md R228). -/
theorem takeFault_raises (f : Fault) (s : State) : Raises f s (takeFault f s) :=
  ⟨_, rfl, rfl, fun _ => rfl, rfl, rfl, ⟨rfl, rfl⟩, ⟨fun _ _ => rfl, rfl⟩, fun _ => rfl, rfl⟩

theorem takeFault_next {f : Fault} (h : takeFault f s = .next t) : t = { s with fault := some f } := by
  cases h; rfl

/-- A call either faults at the depth limit or pushes the advanced pc and goes to nnn (spec/40_control_flow.md R104). -/
theorem callWith_cases {depth : Nat} {nnn : Addr12} (h : callWith depth nnn s = .next t) :
    (depth ≤ s.sp.val ∧ t = { s with fault := some (.stackOverflow s.pc) }) ∨
    (s.sp.val < depth ∧ t = (s.advance.push s.advance.pc).setPc (zextAddr nnn)) := by
  unfold callWith at h
  split at h
  · next hd => exact .inl ⟨hd, takeFault_next h⟩
  · next hd => cases h; exact .inr ⟨by omega, rfl⟩

/-- A return either faults on the empty stack or pops (R101). -/
theorem execRet_cases (h : execRet s = .next t) :
    (s.sp.val = 0 ∧ t = { s with fault := some (.stackUnderflow s.pc) }) ∨
    (0 < s.sp.val ∧ t = s.advance.drop.setPc s.top) := by
  unfold execRet at h
  split at h
  · next hd => exact .inl ⟨hd, takeFault_next h⟩
  · next hd => cases h; exact .inr ⟨by omega, rfl⟩

/-- An ALU result is written to V[x], or its absence raises AluOverflow (spec/42_alu.md R165, R166). -/
theorem finishAlu_cases {i : Instr} {x : RegIdx} {r : Option Byte} (h : finishAlu i x r s = .next t) :
    (r = none ∧ t = { s with fault := some (.aluOverflow s.pc (encode i)) }) ∨
    (∃ b, r = some b ∧ t = s.advance.setV x b) := by
  unfold finishAlu at h
  split at h
  · next b => cases h; exact .inr ⟨b, rfl, rfl⟩
  · exact .inl ⟨rfl, takeFault_next h⟩

/-- An I addition writes the sum, or its absence raises IndexOverflow (spec/43_index_memory.md R196). -/
theorem indexAddWith_cases {rule : OverflowRule} {i : Instr} {k : Nat} (h : indexAddWith rule i k s = .next t) :
    (indexSum rule s.i k = none ∧ t = { s with fault := some (.indexOverflow s.pc (encode i)) }) ∨
    (∃ w, indexSum rule s.i k = some w ∧ t = s.advance.setI w) := by
  unfold indexAddWith at h
  split at h
  · next w hw => cases h; exact .inr ⟨w, hw, rfl⟩
  · next hw => exact .inl ⟨hw, takeFault_next h⟩

/-- A draw either faults at the lowest address out of range or blits (spec/41_display.md R133). -/
theorem execDrw_cases {x y : RegIdx} {n : Height} (h : execDrw x y n s = .next t) :
    (∃ a, firstOutOfRange s.i.toNat n.toNat = some a ∧ t = { s with fault := some (.memReadOutOfRange s.pc a) }) ∨
    (firstOutOfRange s.i.toNat n.toNat = none ∧
      t = finishDraw (drawSprite s.mem s.i.toNat (s.getV x).toNat (s.getV y).toNat n.toNat s.fb) s.advance) := by
  unfold execDrw at h
  split at h
  · next a ha => exact .inl ⟨a, ha, takeFault_next h⟩
  · next ha => cases h; exact .inr ⟨ha, rfl⟩

/-- A block store either faults at the lowest address out of range or stores (spec/43_index_memory.md R194). -/
theorem execStore_cases {x : RegIdx} (h : execStore x s = .next t) :
    (∃ a, firstOutOfRange s.i.toNat x.toNat = some a ∧ t = { s with fault := some (.memWriteOutOfRange s.pc a) }) ∨
    (firstOutOfRange s.i.toNat x.toNat = none ∧
      t = { s.advance with mem := storeRegs s.v s.i.toNat x.toNat s.mem }) := by
  unfold execStore at h
  split at h
  · next a ha => exact .inl ⟨a, ha, takeFault_next h⟩
  · next ha => cases h; exact .inr ⟨ha, rfl⟩

/-- A block load either faults at the lowest address out of range or loads (R195). -/
theorem execLoad_cases {x : RegIdx} (h : execLoad x s = .next t) :
    (∃ a, firstOutOfRange s.i.toNat x.toNat = some a ∧ t = { s with fault := some (.memReadOutOfRange s.pc a) }) ∨
    (firstOutOfRange s.i.toNat x.toNat = none ∧
      t = { s.advance with v := loadRegs s.mem s.i.toNat x.toNat s.v }) := by
  unfold execLoad at h
  split at h
  · next a ha => exact .inl ⟨a, ha, takeFault_next h⟩
  · next ha => cases h; exact .inr ⟨ha, rfl⟩

/-- Everything an instruction that answers a next state can be: a fault latched at the state of the step's start, with the
instruction's one cause (R230), or its own effect. -/
inductive ExecNext : Instr → State → State → Prop where
  | fault (i : Instr) (s : State) (f : Fault) (hcode : f.code = ownFaultCode i) (hpc : f.pc = s.pc) : ExecNext i s { s with fault := some f }
  | sys (s : State) : ExecNext .sys s s.advance
  | cls (s : State) : ExecNext .cls s { s.advance with fb := clearFb, dirty := true }
  | ret (s : State) (h : 0 < s.sp.val) : ExecNext .ret s (s.advance.drop.setPc s.top)
  | jp (nnn : Addr12) (s : State) : ExecNext (.jp nnn) s (s.advance.setPc (zextAddr nnn))
  | call (nnn : Addr12) (s : State) (h : s.sp.val < stackMaxDepth) :
      ExecNext (.call nnn) s ((s.advance.push s.advance.pc).setPc (zextAddr nnn))
  | seImm (x : RegIdx) (nn : Byte) (s : State) : ExecNext (.seImm x nn) s (s.advance.skipIf (s.getV x == nn))
  | sneImm (x : RegIdx) (nn : Byte) (s : State) : ExecNext (.sneImm x nn) s (s.advance.skipIf (s.getV x != nn))
  | seReg (x : RegIdx) (y : RegIdx) (s : State) : ExecNext (.seReg x y) s (s.advance.skipIf (s.getV x == s.getV y))
  | sneReg (x : RegIdx) (y : RegIdx) (s : State) : ExecNext (.sneReg x y) s (s.advance.skipIf (s.getV x != s.getV y))
  | ldImm (x : RegIdx) (nn : Byte) (s : State) : ExecNext (.ldImm x nn) s (s.advance.setV x nn)
  | addImm (x : RegIdx) (nn : Byte) (s : State) : ExecNext (.addImm x nn) s (s.advance.setV x (s.getV x + nn))
  | ldReg (x : RegIdx) (y : RegIdx) (s : State) : ExecNext (.ldReg x y) s (s.advance.setV x (s.getV y))
  | andReg (x : RegIdx) (y : RegIdx) (s : State) : ExecNext (.andReg x y) s (s.advance.setV x (s.getV x &&& s.getV y))
  | xorReg (x : RegIdx) (y : RegIdx) (s : State) : ExecNext (.xorReg x y) s (s.advance.setV x (s.getV x ^^^ s.getV y))
  | addReg (x : RegIdx) (y : RegIdx) (s : State) (b : Byte) (h : aluSum aluOverflow (s.getV x) (s.getV y) = some b) :
      ExecNext (.addReg x y) s (s.advance.setV x b)
  | subReg (x : RegIdx) (y : RegIdx) (s : State) (b : Byte) (h : aluDiff aluOverflow (s.getV x) (s.getV y) = some b) :
      ExecNext (.subReg x y) s (s.advance.setV x b)
  | shl (x : RegIdx) (y : RegIdx) (s : State) : ExecNext (.shl x y) s (shlWith shlOrder x y s.advance)
  | ldI (nnn : Addr12) (s : State) : ExecNext (.ldI nnn) s (s.advance.setI (zextAddr nnn))
  | jpV0 (nnn : Addr12) (s : State) : ExecNext (.jpV0 nnn) s (s.advance.setPc (offsetTarget nnn (s.getV v0)))
  | rnd (x : RegIdx) (nn : Byte) (s : State) : ExecNext (.rnd x nn) s ((drawRand s.advance).2.setV x ((drawRand s.advance).1 &&& nn))
  | drw (x : RegIdx) (y : RegIdx) (n : Height) (s : State) (h : n.toNat = 0 ∨ s.i.toNat + n.toNat ≤ memSize) :
      ExecNext (.drw x y n) s
        (finishDraw (drawSprite s.mem s.i.toNat (s.getV x).toNat (s.getV y).toNat n.toNat s.fb) s.advance)
  | addILit (x : RegIdx) (s : State) (w : Word) (h : indexSum iOverflow s.i (fx15Value fx15Addend x s) = some w) :
      ExecNext (.addILit x) s (s.advance.setI w)
  | addIReg (x : RegIdx) (s : State) (w : Word) (h : indexSum iOverflow s.i (s.getV x).toNat = some w) : ExecNext (.addIReg x) s (s.advance.setI w)
  | ldF (x : RegIdx) (s : State) (w : Word) (h : indexSum iOverflow s.i (glyphOffset (s.getV x)) = some w) : ExecNext (.ldF x) s (s.advance.setI w)
  | store (x : RegIdx) (s : State) (h : x.toNat = 0 ∨ s.i.toNat + x.toNat ≤ memSize) :
      ExecNext (.store x) s { s.advance with mem := storeRegs s.v s.i.toNat x.toNat s.mem }
  | load (x : RegIdx) (s : State) (h : x.toNat = 0 ∨ s.i.toNat + x.toNat ≤ memSize) :
      ExecNext (.load x) s { s.advance with v := loadRegs s.mem s.i.toNat x.toNat s.v }

/-- The inversion of `exec`, once for every claim about all instructions. -/
theorem exec_next_cases {i : Instr} (h : exec i s = .next t) : ExecNext i s t := by
  cases i
  case ret =>
    rcases execRet_cases h with ⟨_, rfl⟩ | ⟨hp, rfl⟩
    · exact .fault _ _ _ rfl rfl
    · exact .ret _ hp
  case call =>
    rcases callWith_cases h with ⟨_, rfl⟩ | ⟨hp, rfl⟩
    · exact .fault _ _ _ rfl rfl
    · exact .call _ _ hp
  case addReg =>
    rcases finishAlu_cases h with ⟨_, rfl⟩ | ⟨b, hb, rfl⟩
    · exact .fault _ _ _ rfl rfl
    · exact .addReg _ _ _ b hb
  case subReg =>
    rcases finishAlu_cases h with ⟨_, rfl⟩ | ⟨b, hb, rfl⟩
    · exact .fault _ _ _ rfl rfl
    · exact .subReg _ _ _ b hb
  case drw =>
    rcases execDrw_cases h with ⟨_, _, rfl⟩ | ⟨hn, rfl⟩
    · exact .fault _ _ _ rfl rfl
    · exact .drw _ _ _ _ (firstOutOfRange_eq_none.1 hn)
  case store =>
    rcases execStore_cases h with ⟨_, _, rfl⟩ | ⟨hn, rfl⟩
    · exact .fault _ _ _ rfl rfl
    · exact .store _ _ (firstOutOfRange_eq_none.1 hn)
  case load =>
    rcases execLoad_cases h with ⟨_, _, rfl⟩ | ⟨hn, rfl⟩
    · exact .fault _ _ _ rfl rfl
    · exact .load _ _ (firstOutOfRange_eq_none.1 hn)
  case addILit =>
    rcases indexAddWith_cases h with ⟨_, rfl⟩ | ⟨w, hw, rfl⟩
    · exact .fault _ _ _ rfl rfl
    · exact .addILit _ _ w hw
  case addIReg =>
    rcases indexAddWith_cases h with ⟨_, rfl⟩ | ⟨w, hw, rfl⟩
    · exact .fault _ _ _ rfl rfl
    · exact .addIReg _ _ w hw
  case ldF =>
    rcases indexAddWith_cases h with ⟨_, rfl⟩ | ⟨w, hw, rfl⟩
    · exact .fault _ _ _ rfl rfl
    · exact .ldF _ _ w hw
  all_goals (cases h; constructor)

/-- Every instruction answers a next state (R234): its own effect, or a fault latched. -/
theorem exec_answers_next (i : Instr) (s : State) : ∃ t, exec i s = .next t := by
  cases i
  case ret => simp only [exec, execRet]; split <;> exact ⟨_, rfl⟩
  case call => simp only [exec, execCall, callWith]; split <;> exact ⟨_, rfl⟩
  case addReg => simp only [exec, execAddReg, addRegWith, finishAlu]; split <;> exact ⟨_, rfl⟩
  case subReg => simp only [exec, execSubReg, subRegWith, finishAlu]; split <;> exact ⟨_, rfl⟩
  case drw => simp only [exec, execDrw]; split <;> exact ⟨_, rfl⟩
  case store => simp only [exec, execStore]; split <;> exact ⟨_, rfl⟩
  case load => simp only [exec, execLoad]; split <;> exact ⟨_, rfl⟩
  case addILit => simp only [exec, execAddILit, addILitWith, indexAddWith]; split <;> exact ⟨_, rfl⟩
  case addIReg => simp only [exec, execAddIReg, indexAddWith]; split <;> exact ⟨_, rfl⟩
  case ldF => simp only [exec, execLdF, indexAddWith]; split <;> exact ⟨_, rfl⟩
  all_goals exact ⟨_, rfl⟩

/-- A shift changes the register file and nothing else (R167). -/
theorem shlWith_eq (o : ShlOrder) (x y : RegIdx) (s : State) : shlWith o x y s = { s with v := (shlWith o x y s).v } := by
  cases o <;> rfl

/-- The fetch gives the two bytes at pc, or nothing (spec/30_encoding.md R72). -/
theorem fetch_cases (s : State) :
    (s.pc.toNat + 1 < memSize ∧ fetch s = some [s.mem.read s.pc.toNat, s.mem.read (s.pc.toNat + 1)]) ∨
    (memSize ≤ s.pc.toNat + 1 ∧ fetch s = none) := by
  unfold fetch
  split
  · next h => exact .inl ⟨h, rfl⟩
  · next h => exact .inr ⟨by omega, rfl⟩

/-- One cycle: the fetch fault, the decode fault, or the decoded instruction (R70, R230). -/
theorem cycle_cases (s : State) :
    (memSize ≤ s.pc.toNat + 1 ∧ cycle s = takeFault (.fetchOutOfRange s.pc) s) ∨
    (s.pc.toNat + 1 < memSize ∧ decodeWord (wordAt s.mem s.pc.toNat) = none ∧
      cycle s = takeFault (.unrecognizedOpcode s.pc (wordAt s.mem s.pc.toNat)) s) ∨
    (s.pc.toNat + 1 < memSize ∧ ∃ i, decodeWord (wordAt s.mem s.pc.toNat) = some i ∧ cycle s = exec i s) := by
  rcases fetch_cases s with ⟨h, hf⟩ | ⟨h, hf⟩
  · right
    have e : cycle s = runFetched [s.mem.read s.pc.toNat, s.mem.read (s.pc.toNat + 1)] s := by simp only [cycle, hf]
    unfold runFetched decode at e
    cases hd : decodeWord (wordAt s.mem s.pc.toNat) with
    | none => rw [wordAt] at hd; simp only [hd] at e; exact .inl ⟨h, rfl, e⟩
    | some i => rw [wordAt] at hd; simp only [hd] at e; exact .inr ⟨h, i, rfl, e⟩
  · exact .inl ⟨h, by simp only [cycle, hf]⟩

/-- A step of a Faulted block answers the latched fault; of a running one, one cycle (R70, R228). -/
theorem step_of_fault {f : Fault} (h : s.fault = some f) : step s = .fault f := by simp only [step, h]

theorem step_of_running (h : s.fault = none) : step s = cycle s := by simp only [step, h]

/-- Everything a step that answers a next state can be. -/
theorem step_next_cases (h : step s = .next t) :
    s.fault = none ∧
    ((memSize ≤ s.pc.toNat + 1 ∧ t = { s with fault := some (.fetchOutOfRange s.pc) }) ∨
     (s.pc.toNat + 1 < memSize ∧ decodeWord (wordAt s.mem s.pc.toNat) = none ∧
        t = { s with fault := some (.unrecognizedOpcode s.pc (wordAt s.mem s.pc.toNat)) }) ∨
     (s.pc.toNat + 1 < memSize ∧ ∃ i, decodeWord (wordAt s.mem s.pc.toNat) = some i ∧ exec i s = .next t)) := by
  cases hf : s.fault with
  | some f => rw [step_of_fault hf] at h; cases h
  | none =>
    rw [step_of_running hf] at h
    refine ⟨rfl, ?_⟩
    rcases cycle_cases s with ⟨hp, e⟩ | ⟨hp, hd, e⟩ | ⟨hp, i, hd, e⟩
    · exact .inl ⟨hp, takeFault_next (e ▸ h)⟩
    · exact .inr (.inl ⟨hp, hd, takeFault_next (e ▸ h)⟩)
    · exact .inr (.inr ⟨hp, i, hd, e ▸ h⟩)

/-- The sum of `8xy4` has a value exactly when it fits (R165). -/
theorem aluSum_of_le {rule : OverflowRule} {a b : Byte} (h : a.toNat + b.toNat ≤ 255) :
    aluSum rule a b = some (BitVec.ofNat 8 (a.toNat + b.toNat)) := by simp [aluSum, h]

theorem aluSum_of_gt {rule : OverflowRule} {a b : Byte} (h : 255 < a.toNat + b.toNat) :
    aluSum rule a b = match rule with
      | .fault => none | .wrap => some (BitVec.ofNat 8 (a.toNat + b.toNat - 256)) := by
  have : ¬ a.toNat + b.toNat ≤ 255 := by omega
  cases rule <;> simp [aluSum, this]

/-- The difference of `8xy5` has a value exactly when there is no borrow (R166). -/
theorem aluDiff_of_le {rule : OverflowRule} {a b : Byte} (h : b.toNat ≤ a.toNat) :
    aluDiff rule a b = some (BitVec.ofNat 8 (a.toNat - b.toNat)) := by simp [aluDiff, h]

theorem aluDiff_of_lt {rule : OverflowRule} {a b : Byte} (h : a.toNat < b.toNat) :
    aluDiff rule a b = match rule with
      | .fault => none | .wrap => some (BitVec.ofNat 8 (a.toNat + 256 - b.toNat)) := by
  have : ¬ b.toNat ≤ a.toNat := by omega
  cases rule <;> simp [aluDiff, this]

/-- The sum of an I addition has a value exactly when it fits (R196). -/
theorem indexSum_of_le {rule : OverflowRule} {i : Word} {k : Nat} (h : i.toNat + k ≤ 0xFFFF) :
    indexSum rule i k = some (BitVec.ofNat 16 (i.toNat + k)) := by simp [indexSum, h]

theorem indexSum_of_gt {rule : OverflowRule} {i : Word} {k : Nat} (h : 0xFFFF < i.toNat + k) :
    indexSum rule i k = match rule with
      | .fault => none | .wrap => some (BitVec.ofNat 16 (i.toNat + k - 0x10000)) := by
  have : ¬ i.toNat + k ≤ 0xFFFF := by omega
  cases rule <;> simp [indexSum, this]

/-- The values of the operand forms (spec/30_encoding.md R77). -/
@[simp] theorem toNat_zextAddr (nnn : Addr12) : (zextAddr nnn).toNat = nnn.toNat := by
  have := nnn.isLt
  simp [zextAddr]
  omega

@[simp] theorem toNat_offsetTarget (nnn : Addr12) (b : Byte) : (offsetTarget nnn b).toNat = nnn.toNat + b.toNat := by
  have := nnn.isLt
  have := b.isLt
  simp [offsetTarget]
  omega

@[simp] theorem toNat_shiftFlag (b : Byte) : (shiftFlag b).toNat = b.toNat / 128 := by
  simp [shiftFlag, Nat.shiftRight_eq_div_pow]

end Sys2Proof.Machine
end

