-- ==== Sys2Proof/Laws/PerInstr.lean ====
section
/-! SUPPORT. A law of every instruction as syntax, one lemma per constructor: its word matches its row of the opcode table
(spec/30_encoding.md R80), and the row is one of the table's. -/

namespace Sys2Proof.Laws.EncodedRow

/-- The word of `i` matches the row of R80 that its constructor stands for, which the table holds. -/
def Statement (i : Instr) : Prop := encode i &&& i.row.mask = i.row.value ∧ i.row ∈ opcodeTable

/-- A word of the A or XB format keeps its first nibble under the mask F000. -/
theorem mask_F000 {w : Word} {o : BitVec 4} (h : fieldOp w = o) : w &&& 0xF000#16 = o ++ 0x000#12 := by
  subst h
  apply BitVec.eq_of_getLsbD_eq
  intro k hk
  simp only [BitVec.getLsbD_and, BitVec.getLsbD_append, fieldOp, BitVec.getLsbD_extractLsb']
  interval_cases k <;> simp

/-- A word keeps its first and last nibble under the mask F00F. -/
theorem mask_F00F {w : Word} {o n : BitVec 4} (h : fieldOp w = o) (h' : fieldN w = n) :
    w &&& 0xF00F#16 = o ++ (0x00#8 ++ n) := by
  subst h h'
  apply BitVec.eq_of_getLsbD_eq
  intro k hk
  simp only [BitVec.getLsbD_and, BitVec.getLsbD_append, fieldOp, fieldN, BitVec.getLsbD_extractLsb']
  interval_cases k <;> simp

/-- A word keeps its first nibble and its low byte under the mask F0FF. -/
theorem mask_F0FF {w : Word} {o : BitVec 4} {nn : Byte} (h : fieldOp w = o) (h' : fieldNN w = nn) :
    w &&& 0xF0FF#16 = o ++ (0x0#4 ++ nn) := by
  subst h h'
  apply BitVec.eq_of_getLsbD_eq
  intro k hk
  simp only [BitVec.getLsbD_and, BitVec.getLsbD_append, fieldOp, fieldNN, BitVec.getLsbD_extractLsb']
  interval_cases k <;> simp

theorem sys : Statement (.sys) :=
  ⟨by decide, by simp [Instr.row, opcodeTable, opcodeRowsLow, opcodeRowsHigh]⟩

theorem cls : Statement (.cls) :=
  ⟨by decide, by simp [Instr.row, opcodeTable, opcodeRowsLow, opcodeRowsHigh]⟩

theorem ret : Statement (.ret) :=
  ⟨by decide, by simp [Instr.row, opcodeTable, opcodeRowsLow, opcodeRowsHigh]⟩

theorem jp (nnn : Addr12) : Statement (.jp nnn) :=
  ⟨mask_F000 (w := formA 0x1#4 nnn) (o := 0x1#4) (by simp), by simp [Instr.row, opcodeTable, opcodeRowsLow, opcodeRowsHigh]⟩

theorem call (nnn : Addr12) : Statement (.call nnn) :=
  ⟨mask_F000 (w := formA 0x2#4 nnn) (o := 0x2#4) (by simp), by simp [Instr.row, opcodeTable, opcodeRowsLow, opcodeRowsHigh]⟩

theorem seImm (x : RegIdx) (nn : Byte) : Statement (.seImm x nn) :=
  ⟨mask_F000 (w := formXB 0x3#4 x nn) (o := 0x3#4) (by simp), by simp [Instr.row, opcodeTable, opcodeRowsLow, opcodeRowsHigh]⟩

theorem sneImm (x : RegIdx) (nn : Byte) : Statement (.sneImm x nn) :=
  ⟨mask_F000 (w := formXB 0x4#4 x nn) (o := 0x4#4) (by simp), by simp [Instr.row, opcodeTable, opcodeRowsLow, opcodeRowsHigh]⟩

theorem seReg (x y : RegIdx) : Statement (.seReg x y) :=
  ⟨mask_F00F (w := formXYN 0x5#4 x y 0x0#4) (o := 0x5#4) (n := 0x0#4) (by simp) (by simp), by simp [Instr.row, opcodeTable, opcodeRowsLow, opcodeRowsHigh]⟩

theorem ldImm (x : RegIdx) (nn : Byte) : Statement (.ldImm x nn) :=
  ⟨mask_F000 (w := formXB 0x6#4 x nn) (o := 0x6#4) (by simp), by simp [Instr.row, opcodeTable, opcodeRowsLow, opcodeRowsHigh]⟩

theorem addImm (x : RegIdx) (nn : Byte) : Statement (.addImm x nn) :=
  ⟨mask_F000 (w := formXB 0x7#4 x nn) (o := 0x7#4) (by simp), by simp [Instr.row, opcodeTable, opcodeRowsLow, opcodeRowsHigh]⟩

theorem ldReg (x y : RegIdx) : Statement (.ldReg x y) :=
  ⟨mask_F00F (w := formXYN 0x8#4 x y 0x0#4) (o := 0x8#4) (n := 0x0#4) (by simp) (by simp), by simp [Instr.row, opcodeTable, opcodeRowsLow, opcodeRowsHigh]⟩

theorem andReg (x y : RegIdx) : Statement (.andReg x y) :=
  ⟨mask_F00F (w := formXYN 0x8#4 x y 0x2#4) (o := 0x8#4) (n := 0x2#4) (by simp) (by simp), by simp [Instr.row, opcodeTable, opcodeRowsLow, opcodeRowsHigh]⟩

theorem xorReg (x y : RegIdx) : Statement (.xorReg x y) :=
  ⟨mask_F00F (w := formXYN 0x8#4 x y 0x3#4) (o := 0x8#4) (n := 0x3#4) (by simp) (by simp), by simp [Instr.row, opcodeTable, opcodeRowsLow, opcodeRowsHigh]⟩

theorem addReg (x y : RegIdx) : Statement (.addReg x y) :=
  ⟨mask_F00F (w := formXYN 0x8#4 x y 0x4#4) (o := 0x8#4) (n := 0x4#4) (by simp) (by simp), by simp [Instr.row, opcodeTable, opcodeRowsLow, opcodeRowsHigh]⟩

theorem subReg (x y : RegIdx) : Statement (.subReg x y) :=
  ⟨mask_F00F (w := formXYN 0x8#4 x y 0x5#4) (o := 0x8#4) (n := 0x5#4) (by simp) (by simp), by simp [Instr.row, opcodeTable, opcodeRowsLow, opcodeRowsHigh]⟩

theorem shl (x y : RegIdx) : Statement (.shl x y) :=
  ⟨mask_F00F (w := formXYN 0x8#4 x y 0xE#4) (o := 0x8#4) (n := 0xE#4) (by simp) (by simp), by simp [Instr.row, opcodeTable, opcodeRowsLow, opcodeRowsHigh]⟩

theorem sneReg (x y : RegIdx) : Statement (.sneReg x y) :=
  ⟨mask_F00F (w := formXYN 0x9#4 x y 0x0#4) (o := 0x9#4) (n := 0x0#4) (by simp) (by simp), by simp [Instr.row, opcodeTable, opcodeRowsLow, opcodeRowsHigh]⟩

theorem ldI (nnn : Addr12) : Statement (.ldI nnn) :=
  ⟨mask_F000 (w := formA 0xA#4 nnn) (o := 0xA#4) (by simp), by simp [Instr.row, opcodeTable, opcodeRowsLow, opcodeRowsHigh]⟩

theorem jpV0 (nnn : Addr12) : Statement (.jpV0 nnn) :=
  ⟨mask_F000 (w := formA 0xB#4 nnn) (o := 0xB#4) (by simp), by simp [Instr.row, opcodeTable, opcodeRowsLow, opcodeRowsHigh]⟩

theorem rnd (x : RegIdx) (nn : Byte) : Statement (.rnd x nn) :=
  ⟨mask_F000 (w := formXB 0xC#4 x nn) (o := 0xC#4) (by simp), by simp [Instr.row, opcodeTable, opcodeRowsLow, opcodeRowsHigh]⟩

theorem drw (x y : RegIdx) (n : Height) : Statement (.drw x y n) :=
  ⟨mask_F000 (w := formXYN 0xD#4 x y n) (o := 0xD#4) (by simp), by simp [Instr.row, opcodeTable, opcodeRowsLow, opcodeRowsHigh]⟩

theorem addILit (x : RegIdx) : Statement (.addILit x) :=
  ⟨mask_F0FF (w := formXB 0xF#4 x 0x15#8) (o := 0xF#4) (nn := 0x15#8) (by simp) (by simp), by simp [Instr.row, opcodeTable, opcodeRowsLow, opcodeRowsHigh]⟩

theorem addIReg (x : RegIdx) : Statement (.addIReg x) :=
  ⟨mask_F0FF (w := formXB 0xF#4 x 0x1E#8) (o := 0xF#4) (nn := 0x1E#8) (by simp) (by simp), by simp [Instr.row, opcodeTable, opcodeRowsLow, opcodeRowsHigh]⟩

theorem ldF (x : RegIdx) : Statement (.ldF x) :=
  ⟨mask_F0FF (w := formXB 0xF#4 x 0x29#8) (o := 0xF#4) (nn := 0x29#8) (by simp) (by simp), by simp [Instr.row, opcodeTable, opcodeRowsLow, opcodeRowsHigh]⟩

theorem store (x : RegIdx) : Statement (.store x) :=
  ⟨mask_F0FF (w := formXB 0xF#4 x 0x55#8) (o := 0xF#4) (nn := 0x55#8) (by simp) (by simp), by simp [Instr.row, opcodeTable, opcodeRowsLow, opcodeRowsHigh]⟩

theorem load (x : RegIdx) : Statement (.load x) :=
  ⟨mask_F0FF (w := formXB 0xF#4 x 0x65#8) (o := 0xF#4) (nn := 0x65#8) (by simp) (by simp), by simp [Instr.row, opcodeTable, opcodeRowsLow, opcodeRowsHigh]⟩

end Sys2Proof.Laws.EncodedRow
end

