-- ==== Sys2Proof/Tests/Slice0.lean ====
section
/-! SUPPORT. Tests and witnesses. Every expected value is from spec/95_test_vectors.md or from an example of the rule named;
none was read off the model. A witness shows that the hypotheses of an obligation are met together, at the boundaries. -/

namespace Sys2Proof.Tests

open Sys2Proof.Machine

set_option Elab.async false

/-! Helpers: small states made from the state after reset. -/

/-- The state after reset with registers set. -/
def withV (l : List (RegIdx × Byte)) (s : State) : State := l.foldl (fun s p => s.setV p.1 p.2) s

/-- With bytes of memory set. -/
def withMem (a : Nat) (l : List Byte) (s : State) : State := { s with mem := loadImage a l s.mem }

/-- With pixels lit. -/
def withLit (l : List (Fin fbW × Fin fbH)) (s : State) : State :=
  { s with fb := l.foldl (fun fb p => Framebuffer.setPixel fb p.1 p.2 true) s.fb }

/-- With pc and I set. -/
def at' (pc i : Word) (s : State) : State := { s with pc := pc, i := i }

/-- With a return stack of the given depth. -/
def withSp (k : Fin 17) (s : State) : State := { s with sp := k }

/-- One step with the word placed at pc. -/
def run1 (w : Nat) (s : State) : Result := step (s.withFetchWord 16 w)

/-- The step ran, and its next state is running and satisfies `p`. -/
def runs (r : Result) (p : State → Bool) : Bool :=
  match r with
  | .next t => t.fault == none && p t
  | _ => false

/-- The step raised exactly this fault, in a next state that satisfies `p`. -/
def raised (r : Result) (f : Fault) (p : State → Bool) : Bool :=
  match r with
  | .next t => t.fault == some f && p t
  | _ => false

/-- The lit pixels of some columns of a row, as a string of bits. -/
def rowBits (fb : Framebuffer) (r : Fin fbH) (cols : List (Fin fbW)) : List Bool := cols.map (fun c => fb.pixel c r)

def r0 : State := State.reset

/-! ## Well-formedness: each check refuses an ill-formed term -/

/-- L2-D5 to L2-D15: words of every family with no row in the table. -/
theorem test_wellFormedWord_refuses :
    [0x0001#16, 0x00E1#16, 0x00FF#16, 0x0123#16, 0x0FFF#16, 0x5121#16, 0x9121#16, 0x8121#16, 0x8126#16, 0x8127#16, 0x812F#16,
     0xE19E#16, 0xE1A1#16, 0xF107#16, 0xF10A#16, 0xF118#16, 0xF133#16].all (fun w => !wellFormedWord w) = true := by decide

/-- The same words, by the decoder: rejected by name. -/
theorem test_decode_rejects :
    [0x0001#16, 0x00E1#16, 0x00FF#16, 0x0123#16, 0x0FFF#16, 0x5121#16, 0x9121#16, 0x8121#16, 0x8126#16, 0x8127#16, 0x812F#16,
     0xE19E#16, 0xE1A1#16, 0xF107#16, 0xF10A#16, 0xF118#16, 0xF133#16].all
      (fun w => decode (wordBytes w) == .unrecognized w) = true := by decide

theorem test_wellFormedWord_accepts : wellFormedWord 0xF065#16 = true ∧ wellFormedWord 0x0000#16 = true := by decide

/-- R88: no instruction is shorter than two bytes. -/
theorem test_decode_truncated : decode [] = .truncated ∧ decode [0x00#8] = .truncated := by decide

/-- L2-R3, L2-R4: 3584 bytes are accepted, 3585 refused. -/
theorem test_wellFormedImage_refuses (b : Byte) : wellFormedImage (List.replicate 3585 b) = false := by
  rw [wellFormedImage, List.length_replicate]; decide

theorem test_wellFormedImage_accepts (b : Byte) : wellFormedImage (List.replicate 3584 b) = true := by
  rw [wellFormedImage, List.length_replicate]; decide

/-! ## Decoding: one word for every constructor, written out from the patterns of R80 (bits: R75, R76) -/

theorem test_decode_family0 :
    decode [0x00#8, 0x00#8] = .instr .sys [] ∧ decode [0x00#8, 0xE0#8] = .instr .cls [] ∧
    decode [0x00#8, 0xEE#8, 0x12#8] = .instr .ret [0x12#8] := by decide

theorem test_decode_addresses :
    decodeWord 0b0001001000110100#16 = some (.jp 0x234#12) ∧ decodeWord 0b0010001000010000#16 = some (.call 0x210#12) ∧
    decodeWord 0b1010001100000000#16 = some (.ldI 0x300#12) ∧ decodeWord 0b1011001000000110#16 = some (.jpV0 0x206#12) := by
  decide

theorem test_decode_immediates :
    decodeWord 0b0011101000000101#16 = some (.seImm 0xA#4 0x05#8) ∧
    decodeWord 0b0100101000000101#16 = some (.sneImm 0xA#4 0x05#8) ∧
    decodeWord 0b0110101000000101#16 = some (.ldImm 0xA#4 0x05#8) ∧
    decodeWord 0b0111001100000010#16 = some (.addImm 0x3#4 0x02#8) ∧
    decodeWord 0b1100000100001111#16 = some (.rnd 0x1#4 0x0F#8) := by decide

theorem test_decode_registers :
    decodeWord 0b0101000100100000#16 = some (.seReg 0x1#4 0x2#4) ∧
    decodeWord 0b1001000100100000#16 = some (.sneReg 0x1#4 0x2#4) ∧
    decodeWord 0b1000000100100000#16 = some (.ldReg 0x1#4 0x2#4) ∧
    decodeWord 0b1000000100100010#16 = some (.andReg 0x1#4 0x2#4) ∧
    decodeWord 0b1000000100100011#16 = some (.xorReg 0x1#4 0x2#4) ∧
    decodeWord 0b1000000100100100#16 = some (.addReg 0x1#4 0x2#4) ∧
    decodeWord 0b1000000100100101#16 = some (.subReg 0x1#4 0x2#4) ∧
    decodeWord 0b1000000100101110#16 = some (.shl 0x1#4 0x2#4) := by decide

theorem test_decode_draw_and_index :
    decodeWord 0b1101000000011111#16 = some (.drw 0x0#4 0x1#4 0xF#4) ∧
    decodeWord 0b1111001100010101#16 = some (.addILit 0x3#4) ∧
    decodeWord 0b1111001000011110#16 = some (.addIReg 0x2#4) ∧
    decodeWord 0b1111001000101001#16 = some (.ldF 0x2#4) ∧
    decodeWord 0b1111001001010101#16 = some (.store 0x2#4) ∧
    decodeWord 0b1111001001100101#16 = some (.load 0x2#4) := by decide

/-- Encoding, from the patterns: every operand in its nibble. -/
theorem test_encode_words :
    encode (.drw 0xA#4 0xB#4 0xC#4) = 0xDABC#16 ∧ encode (.call 0xABC#12) = 0x2ABC#16 ∧
    encode (.rnd 0x9#4 0x5A#8) = 0xC95A#16 ∧ encode (.shl 0x7#4 0x8#4) = 0x878E#16 ∧ encode (.store 0xF#4) = 0xFF55#16 := by
  decide

/-- The host's view: 16 bits as numbered, high byte first in memory; unrecognised words give none. -/
theorem test_decodeTableWord :
    decodeTableWord 16 0x6A05 = some (.ldImm 0xA#4 0x05#8) ∧ decodeTableWord 16 0xE19E = none := by decide

/-! ## Fetch and the step -/

/-- L2-D1: an odd pc is fetched as it is. -/
theorem test_fetch_odd_pc : runs (step (withMem 0x201 [0x60#8, 0x12#8] (at' 0x201#16 0#16 r0)))
    (fun t => t.getV 0 == 0x12#8 && t.pc == 0x203#16) = true := by decide +kernel

/-- L2-D3 and L2-D4: no fetch at 0x1000, and none at 0xFFF, though MEM[0xFFF] exists. -/
theorem test_fetch_out_of_range :
    raised (step (at' 0x1000#16 0#16 r0)) (.fetchOutOfRange 0x1000#16) (fun t => t.pc == 0x1000#16) = true ∧
    raised (step (at' 0xFFF#16 0#16 r0)) (.fetchOutOfRange 0xFFF#16) (fun t => t.pc == 0xFFF#16) = true := by decide +kernel

/-- L2-F3: the fetch check comes before the call's own. -/
theorem test_fetch_before_call :
    raised (step (withSp 15 (withMem 0xFFF [0x22#8] (at' 0xFFF#16 0#16 r0)))) (.fetchOutOfRange 0xFFF#16)
      (fun t => t.sp == 15) = true := by decide +kernel

/-- L2-D8: a word with no row. -/
theorem test_unrecognized : raised (run1 0x0123 r0) (.unrecognizedOpcode 0x200#16 0x0123#16) (fun t => t.pc == 0x200#16) = true := by
  decide +kernel

/-- L2-F1: the Faulted block answers the same fault. -/
theorem test_faulted_step :
    step { r0 with fault := some (.stackUnderflow 0x200#16) } = .fault (.stackUnderflow 0x200#16) := by rfl

/-- L2-F2, L2-F6, L2-F7, L1-10: the host's transactions. -/
theorem test_host_transactions :
    (transact .needsRedraw { r0 with fault := some (.stackUnderflow 0x200#16) }).2 = .redraw false ∧
    (transactAll [.clearDirty, .needsRedraw] { r0 with dirty := true }).2 = [.cleared, .redraw false] ∧
    (transactAll [.needsRedraw, .needsRedraw] { r0 with dirty := true }).2 = [.redraw true, .redraw true] := by decide +kernel

/-- L2-C6 as the host sees it: the step's result is the fault. -/
theorem test_step_result : (stepTransaction (r0.withFetchWord 16 0x00EE)).2 = .faulted (.stackUnderflow 0x200#16) ∧
    (stepTransaction (r0.withFetchWord 16 0x6000)).2 = .executed := by decide +kernel

/-! ## Construction -/

/-- L1-1 and L2-R2: the image's bytes at 0x200, zero elsewhere. -/
theorem test_construct_image :
    runs (construct ResetParams.zero [0x6A#8, 0x05#8, 0x12#8, 0x00#8])
      (fun t => t.pc == 0x200#16 && wordAt t.mem 0x200 == 0x6A05#16 && wordAt t.mem 0x202 == 0x1200#16 &&
        t.mem.read 0x1FF == 0#8 && t.mem.read 0x204 == 0#8) = true ∧
    runs (construct ResetParams.zero [0xA2#8]) (fun t => wordAt t.mem 0x200 == 0xA200#16) = true := by decide +kernel

/-- L2-R1: the empty image is accepted, is the reset state, and its first step executes `0000`. -/
theorem test_construct_empty : construct ResetParams.zero [] = .next State.reset ∧
    runs (step State.reset) (fun t => t.pc == 0x202#16) = true := by exact ⟨rfl, by decide +kernel⟩

/-! ## Control flow -/

/-- L2-D17 and L2-D2. -/
theorem test_sys : runs (run1 0x0000 r0) (fun t => t.pc == 0x202#16) = true ∧
    runs (run1 0x0000 (at' 0xFFE#16 0#16 r0)) (fun t => t.pc == 0x1000#16) = true := by decide +kernel

/-- L1-9 and L2-C2: the target, not the target plus 2; 0xFFF is set without a check. -/
theorem test_jp : runs (run1 0x1234 r0) (fun t => t.pc == 0x234#16) = true ∧
    runs (run1 0x1FFF r0) (fun t => t.pc == 0xFFF#16) = true := by decide +kernel

/-- L2-C3. -/
theorem test_call : runs (run1 0x2400 r0)
    (fun t => t.pc == 0x400#16 && t.sp == 1 && t.stack.toList.head? == some 0x202#16) = true := by decide +kernel

/-- L2-C4. -/
theorem test_call_overflow : raised (run1 0x2400 (withSp 15 r0)) (.stackOverflow 0x200#16)
    (fun t => t.sp == 15 && t.pc == 0x200#16) = true := by decide +kernel

/-- L2-C7. -/
theorem test_ret : runs (run1 0x00EE { at' 0x500#16 0#16 r0 with sp := 2, stack := (r0.stack.set 0 0x20A#16).set 1 0x31E#16 })
    (fun t => t.sp == 1 && t.pc == 0x31E#16) = true := by decide +kernel

/-- L2-C6. -/
theorem test_ret_underflow : raised (run1 0x00EE r0) (.stackUnderflow 0x200#16) (fun t => t.pc == 0x200#16) = true := by
  decide +kernel

/-- L2-C8, L2-C9, L2-C19. -/
theorem test_seImm : runs (run1 0x3342 (withV [(3, 0x42#8)] r0)) (fun t => t.pc == 0x204#16) = true ∧
    runs (run1 0x3342 (withV [(3, 0x41#8)] r0)) (fun t => t.pc == 0x202#16) = true ∧
    runs (run1 0x3000 (at' 0xFFC#16 0#16 r0)) (fun t => t.pc == 0x1000#16) = true := by decide +kernel

/-- L2-C10, L2-C11. -/
theorem test_sneImm : runs (run1 0x4342 (withV [(3, 0x42#8)] r0)) (fun t => t.pc == 0x202#16) = true ∧
    runs (run1 0x4342 (withV [(3, 0x41#8)] r0)) (fun t => t.pc == 0x204#16) = true := by decide +kernel

/-- L2-C12, L2-C13, L2-C14. -/
theorem test_seReg : runs (run1 0x5120 (withV [(1, 9#8), (2, 9#8)] r0)) (fun t => t.pc == 0x204#16) = true ∧
    runs (run1 0x5120 (withV [(1, 9#8), (2, 8#8)] r0)) (fun t => t.pc == 0x202#16) = true ∧
    runs (run1 0x5440 (withV [(4, 7#8)] r0)) (fun t => t.pc == 0x204#16) = true := by decide +kernel

/-- L2-C15, L2-C16. -/
theorem test_sneReg : runs (run1 0x9120 (withV [(1, 9#8), (2, 8#8)] r0)) (fun t => t.pc == 0x204#16) = true ∧
    runs (run1 0x9440 (withV [(4, 7#8)] r0)) (fun t => t.pc == 0x202#16) = true := by decide +kernel

/-- L2-C17, L2-C18: no wrap to 12 bits. -/
theorem test_jpV0 : runs (run1 0xB300 (withV [(0, 0x10#8)] r0)) (fun t => t.pc == 0x310#16) = true ∧
    runs (run1 0xBFFF (withV [(0, 0xFF#8)] r0)) (fun t => t.pc == 0x10FE#16) = true := by decide +kernel

/-! ## Display -/

/-- L2-G1. -/
theorem test_cls : runs (run1 0x00E0 (withLit [(0, 0), (63, 31)] (withV [(0xF, 7#8)] r0)))
    (fun t => !t.fb.pixel 0 0 && !t.fb.pixel 63 31 && t.dirty && t.getV 0xF == 7#8) = true := by decide +kernel

/-- L1-5: the second row wraps to row 0, the columns past 63 to column 0. -/
theorem test_drw_wraps : runs (run1 0xD012 (withMem 0x300 [0xFF#8, 0xFF#8] (withV [(0, 0x3F#8), (1, 0x1F#8)] (at' 0x200#16 0x300#16 r0))))
    (fun t => rowBits t.fb 31 [62, 63, 0, 6, 7] == [false, true, true, true, false] &&
      rowBits t.fb 0 [62, 63, 0, 6, 7] == [false, true, true, true, false] && !t.fb.pixel 0 1 &&
      t.getV 0xF == 1#8 && t.dirty && t.i == 0x300#16) = true := by decide +kernel

/-- L2-G7: with x = F the column is the old VF; L2-G2: turning a pixel off is a flip. -/
theorem test_drw_vf : runs (run1 0xDF01 (withMem 0x300 [0xC0#8] (withV [(0xF, 10#8), (0, 5#8)] (at' 0x200#16 0x300#16 r0))))
    (fun t => rowBits t.fb 5 [9, 10, 11, 12] == [false, true, true, false] && t.getV 0xF == 1#8) = true ∧
    runs (run1 0xD121 (withLit [(3, 4)] (withMem 0x300 [0x80#8] (withV [(1, 3#8), (2, 4#8)] (at' 0x200#16 0x300#16 r0)))))
      (fun t => !t.fb.pixel 3 4 && t.getV 0xF == 1#8) = true := by decide +kernel

/-- L2-G9, L2-G10, L2-G5: the range check, its edge, and height 0. -/
theorem test_drw_range : raised (run1 0xD012 (at' 0x200#16 0xFFF#16 r0)) (.memReadOutOfRange 0x200#16 0x1000) (fun t => !t.dirty) = true ∧
    runs (run1 0xD011 (withMem 0xFFF [0x80#8] (at' 0x200#16 0xFFF#16 r0))) (fun t => t.fb.pixel 0 0 && t.getV 0xF == 1#8) = true ∧
    runs (run1 0xD120 (withV [(0xF, 1#8)] (at' 0x200#16 0x1000#16 r0))) (fun t => t.getV 0xF == 0#8 && t.dirty) = true := by
  decide +kernel

/-! ## ALU and registers -/

/-- L2-A1, L2-A2. -/
theorem test_ldImm : runs (run1 0x6AFF r0) (fun t => t.getV 0xA == 0xFF#8) = true ∧
    runs (run1 0x6F07 r0) (fun t => t.getV 0xF == 7#8) = true := by decide +kernel

/-- R161's example (no carry flag) and L2-A4. -/
theorem test_addImm : runs (run1 0x7302 (withV [(3, 0xFF#8), (0xF, 5#8)] r0)) (fun t => t.getV 3 == 1#8 && t.getV 0xF == 5#8) = true ∧
    runs (run1 0x7F01 (withV [(0xF, 0xFF#8)] r0)) (fun t => t.getV 0xF == 0#8) = true := by decide +kernel

/-- L2-A6. -/
theorem test_ldReg : runs (run1 0x8120 (withV [(2, 0x7C#8)] r0)) (fun t => t.getV 1 == 0x7C#8 && t.getV 2 == 0x7C#8) = true := by
  decide +kernel

/-- L2-A7, L2-A8. -/
theorem test_andReg : runs (run1 0x8122 (withV [(1, 0xF0#8), (2, 0x3C#8)] r0)) (fun t => t.getV 1 == 0x30#8) = true ∧
    runs (run1 0x8112 (withV [(1, 0x5A#8)] r0)) (fun t => t.getV 1 == 0x5A#8) = true := by decide +kernel

/-- L2-A9, L2-A10. -/
theorem test_xorReg : runs (run1 0x8123 (withV [(1, 0xF0#8), (2, 0x3C#8)] r0)) (fun t => t.getV 1 == 0xCC#8) = true ∧
    runs (run1 0x8113 (withV [(1, 0x5A#8)] r0)) (fun t => t.getV 1 == 0#8) = true := by decide +kernel

/-- L2-A11, L2-A12, L2-A16. -/
theorem test_addReg : runs (run1 0x8124 (withV [(1, 0x10#8), (2, 0x20#8), (0xF, 7#8)] r0)) (fun t => t.getV 1 == 0x30#8 && t.getV 0xF == 7#8) = true ∧
    runs (run1 0x8124 (withV [(1, 0xFF#8)] r0)) (fun t => t.getV 1 == 0xFF#8) = true ∧
    runs (run1 0x8F24 (withV [(0xF, 3#8), (2, 4#8)] r0)) (fun t => t.getV 0xF == 7#8) = true := by decide +kernel

/-- L2-A13, and L2-A14 under Wrap. -/
theorem test_addReg_overflow :
    raised (run1 0x8124 (withV [(1, 0xF0#8), (2, 0x20#8)] r0)) (.aluOverflow 0x200#16 0x8124#16) (fun t => t.getV 1 == 0xF0#8) = true ∧
    runs (addRegWith .wrap 1 2 (withV [(1, 0xF0#8), (2, 0x20#8), (0xF, 7#8)] r0)) (fun t => t.getV 1 == 0x10#8 && t.getV 0xF == 7#8) = true := by
  decide +kernel

/-- L2-A17, L2-A18. -/
theorem test_subReg : runs (run1 0x8125 (withV [(1, 0x30#8), (2, 0x10#8), (0xF, 7#8)] r0)) (fun t => t.getV 1 == 0x20#8 && t.getV 0xF == 7#8) = true ∧
    runs (run1 0x8125 (withV [(1, 0x10#8), (2, 0x10#8)] r0)) (fun t => t.getV 1 == 0#8) = true := by decide +kernel

/-- L2-A19, and L2-A20 under Wrap. -/
theorem test_subReg_borrow :
    raised (run1 0x8125 (withV [(1, 0x10#8), (2, 0x30#8)] r0)) (.aluOverflow 0x200#16 0x8125#16) (fun t => t.getV 1 == 0x10#8) = true ∧
    runs (subRegWith .wrap 1 2 (withV [(1, 0x10#8), (2, 0x30#8), (0xF, 7#8)] r0)) (fun t => t.getV 1 == 0xE0#8 && t.getV 0xF == 7#8) = true := by
  decide +kernel

/-- L2-A23, L2-A25, L2-A28, L2-A31, L2-A32: FlagFirst in every overlap. -/
theorem test_shl : runs (run1 0x812E (withV [(1, 0x81#8), (2, 1#8)] r0)) (fun t => t.getV 1 == 2#8 && t.getV 0xF == 0#8) = true ∧
    runs (run1 0x811E (withV [(1, 0x81#8)] r0)) (fun t => t.getV 1 == 2#8 && t.getV 0xF == 1#8) = true ∧
    runs (run1 0x8F2E (withV [(0xF, 3#8), (2, 0x80#8)] r0)) (fun t => t.getV 0xF == 2#8) = true ∧
    runs (run1 0x8FFE (withV [(0xF, 0x40#8)] r0)) (fun t => t.getV 0xF == 0#8) = true ∧
    runs (run1 0x81FE (withV [(1, 1#8), (0xF, 0x80#8)] r0)) (fun t => t.getV 1 == 2#8 && t.getV 0xF == 1#8) = true := by decide +kernel

/-- L2-A26, L2-A29, L2-A31: ResultFirst. -/
theorem test_shl_resultFirst : (shlWith .resultFirst 1 1 (withV [(1, 0x81#8)] r0)).getV 0xF = 0#8 ∧
    (shlWith .resultFirst 0xF 2 (withV [(0xF, 3#8), (2, 0x80#8)] r0)).getV 0xF = 1#8 ∧
    (shlWith .resultFirst 0xF 0xF (withV [(0xF, 0x40#8)] r0)).getV 0xF = 1#8 := by decide +kernel

/-- L2-A34: whatever the draw, a mask of 0 gives 0; one draw is counted. -/
theorem test_rnd (s : State) : ∃ t, execRnd 1 0x00#8 s = .next t ∧ t.getV 1 = 0#8 ∧ t.draws = s.draws + 1 :=
  ⟨_, rfl, by simp [State.getV, State.setV, readReg, writeReg], rfl⟩

/-! ## Index register and block transfer -/

/-- L2-I2. -/
theorem test_ldI : runs (run1 0xAFFF r0) (fun t => t.i == 0x0FFF#16) = true := by decide +kernel

/-- L2-I3, L2-I6: adds the nibble. -/
theorem test_addILit : runs (run1 0xF315 (withV [(3, 0x40#8)] (at' 0x200#16 0x112#16 r0))) (fun t => t.i == 0x115#16) = true ∧
    raised (run1 0xF315 (at' 0x200#16 0xFFFE#16 r0)) (.indexOverflow 0x200#16 0xF315#16) (fun t => t.i == 0xFFFE#16) = true := by
  decide +kernel

/-- L2-I4: FX15_ADDEND = Register. -/
theorem test_addILit_register :
    runs (addILitWith .fault .register 3 (withV [(3, 0x40#8)] (at' 0x200#16 0x112#16 r0))) (fun t => t.i == 0x152#16) = true := by
  decide +kernel

/-- L2-I8, L2-I9: above memory without a fault, above 0xFFFF with one. -/
theorem test_addIReg : runs (run1 0xF11E (withV [(1, 0x10#8)] (at' 0x200#16 0xFFF#16 r0))) (fun t => t.i == 0x100F#16) = true ∧
    raised (run1 0xF11E (withV [(1, 1#8)] (at' 0x200#16 0xFFFF#16 r0))) (.indexOverflow 0x200#16 0xF11E#16) (fun t => t.i == 0xFFFF#16) = true := by
  decide +kernel

/-- L2-I10: I_OVERFLOW = Wrap. -/
theorem test_addIReg_wrap : runs (indexAddWith .wrap (.addIReg 1) 1 (at' 0x200#16 0xFFFF#16 r0)) (fun t => t.i == 0#16) = true := by
  decide +kernel

/-- L2-I12, L2-I13: V[x] whole, added and not set. -/
theorem test_ldF : runs (run1 0xF029 (withV [(0, 0xFF#8)] r0)) (fun t => t.i == 0x04FB#16) = true ∧
    runs (run1 0xF229 (withV [(2, 3#8)] (at' 0x200#16 0x103#16 r0))) (fun t => t.i == 0x112#16) = true := by decide +kernel

/-- L2-I14: V[x] is not stored, I is unchanged. -/
theorem test_store : runs (run1 0xF255 (withV [(0, 0x12#8), (1, 0x34#8), (2, 0x56#8)] (withMem 0x302 [0x77#8] (at' 0x200#16 0x300#16 r0))))
    (fun t => wordAt t.mem 0x300 == 0x1234#16 && t.mem.read 0x302 == 0x77#8 && t.i == 0x300#16) = true := by decide +kernel

/-- L2-I17, L2-I19: no byte is written before the check; x = 0 writes nothing anywhere. -/
theorem test_store_range : raised (run1 0xF355 (withV [(0, 1#8), (1, 2#8)] (at' 0x200#16 0xFFE#16 r0))) (.memWriteOutOfRange 0x200#16 0x1000)
      (fun t => wordAt t.mem 0xFFE == 0#16) = true ∧
    runs (run1 0xF055 (at' 0x200#16 0x1000#16 r0)) (fun t => t.pc == 0x202#16) = true := by decide +kernel

/-- L2-I20: V[x] is not loaded. -/
theorem test_load : runs (run1 0xF265 (withV [(2, 0x99#8)] (withMem 0x300 [0x12#8, 0x34#8, 0x56#8] (at' 0x200#16 0x300#16 r0))))
    (fun t => t.getV 0 == 0x12#8 && t.getV 1 == 0x34#8 && t.getV 2 == 0x99#8 && t.i == 0x300#16) = true := by decide +kernel

/-- L2-I22: no register is written before the check. -/
theorem test_load_range : raised (run1 0xF365 (withV [(0, 1#8)] (at' 0x200#16 0xFFE#16 r0))) (.memReadOutOfRange 0x200#16 0x1000)
    (fun t => t.getV 0 == 1#8) = true := by decide +kernel

/-! ## Witnesses: the hypotheses of the obligations, met together -/

theorem witness_decode : decodeWord 0x812E#16 = some (.shl 0x1#4 0x2#4) ∧ decodeWord 0xFF65#16 = some (.load 0xF#4) := by decide +kernel

/-- DecodeFollowsTable and AtMostOneRowMatches: a row of the table that a word matches. -/
theorem witness_row : (⟨0xF00F#16, 0x800E#16⟩ : Row) ∈ opcodeTable ∧ 0x812E#16 &&& 0xF00F#16 = 0x800E#16 := by decide +kernel

/-- UnrecognizedWords: a word of each clause. -/
theorem witness_unrecognized :
    [0x0FFF#16, 0x512F#16, 0x8121#16, 0x912F#16, 0xEFFF#16, 0xFF64#16].map decodeWord = List.replicate 6 none := by decide

/-- StepRunsDecoded and PlacedWordRuns: at the reset pc and at the last fetchable one. -/
theorem witness_step : r0.fault = none ∧ Memory.wf r0.mem ∧ r0.pc.toNat + 1 < 4096 ∧ (at' 0xFFE#16 0 r0).pc.toNat + 1 < 4096 ∧
    decodeWord (r0.mem.read r0.pc.toNat ++ r0.mem.read (r0.pc.toNat + 1)) = some .sys ∧
    decodeWord ((at' 0xFFE#16 0 r0).mem.read 0xFFE ++ (at' 0xFFE#16 0 r0).mem.read 0xFFF) = some .sys := by decide +kernel

/-- FaultedCondition and StepTransactionResult: a step that raises, one that does not, and a Faulted state. -/
theorem witness_raising : (∃ t, step (r0.withFetchWord 16 0x00EE) = .next t ∧ t.fault = some (.stackUnderflow 0x200#16)) ∧
    (r0.withFetchWord 16 0x00EE).fault = none ∧ (∃ t, step r0 = .next t ∧ t.fault = none) ∧
    ({ r0 with fault := some (.stackUnderflow 0x200#16) } : State).fault = some (.stackUnderflow 0x200#16) :=
  ⟨⟨_, rfl, rfl⟩, rfl, ⟨_, rfl, rfl⟩, rfl⟩

/-- FaultPriority and FaultTable: 0xFFF and above, an unrecognised word, and an instruction's own fault. -/
theorem witness_priority : 4096 ≤ (at' 0xFFF#16 0 r0).pc.toNat + 1 ∧ 4096 ≤ (at' 0xFFFF#16 0 r0).pc.toNat + 1 ∧
    decodeWord (wordAt (r0.withFetchWord 16 0x0123).mem 0x200) = none ∧
    (∃ t, exec .ret r0 = .next t ∧ t.fault = some (.stackUnderflow 0x200#16)) :=
  ⟨by decide, by decide, by decide +kernel, _, rfl, rfl⟩

/-- A state inside a subroutine, about to return: the word at 0x200 is `00EE` and SP = 1. -/
def inCall : State :=
  { r0 with sp := 1, stack := r0.stack.set 0 0x1000#16, mem := [(0x201, 0xEE#8)], i := 0xFFFF#16 }

/-- StepKeepsInvariant: a state with the invariant that steps. -/
theorem witness_inv : Inv inCall ∧ ∃ t, step inCall = .next t ∧ t.pc = 0x1000#16 := by
  refine ⟨⟨by decide, by decide, by decide, ?_, ?_⟩, _, rfl, by decide +kernel⟩
  · intro k hk hs
    have h0 : k = 0 := Nat.lt_one_iff.1 hs
    subst h0
    decide +revert
  · intro f hf
    cases hf

/-- ConstructedMeetsInvariant, FirstFetch and FaultedCondition: an accepted construction. -/
theorem witness_construct : ∃ t, construct ResetParams.zero [0xA2#8] = .next t := ⟨_, rfl⟩

/-- ConstructResets: the lengths where its clauses meet. -/
theorem witness_lengths (b : Byte) : 4096 - 0x200 < (List.replicate 3585 b).length ∧
    (List.replicate 3584 b).length ≤ 4096 - 0x200 ∧ ([] : List Byte).length ≤ 4096 - 0x200 := by
  rw [List.length_replicate, List.length_replicate]; decide

/-- RetPops, CallPushes, CallUnderDepth16, FaultTable: the depths where the clauses meet. -/
theorem witness_depths : (withSp 0 r0).sp.val = 0 ∧ (withSp 1 r0).sp.val = 0 + 1 ∧ (withSp 14 r0).sp.val < 15 ∧
    (withSp 15 r0).sp.val = 15 ∧ (withSp 15 r0).sp.val < 16 ∧ (withSp 16 r0).sp.val = 15 + 1 ∧ (withSp 16 r0).sp.val = 16 := by
  decide

/-- CallReturnRoundTrip: a call at the deepest level, one step in the subroutine, and the return's state; and no step at all. -/
theorem witness_roundTrip : (withSp 14 r0).sp.val < 15 ∧ ∃ t u, exec (.call 0x300#12) (withSp 14 r0) = .next t ∧
    StepsAbove 14 1 t u ∧ StepsAbove 14 0 t t ∧ u.sp.val = 14 + 1 ∧ t.sp.val = 14 + 1 :=
  ⟨by decide, _, _, rfl, ⟨_, rfl, by decide +kernel, rfl⟩, rfl, by decide +kernel, by decide +kernel⟩

/-- PcAdvances, OnlyCallAndRetTouchStack, DirtyTracksDraws, OnlyDrawsWritePixels, WritersOfV, WritersOfI,
OnlyStoreWritesMemory: an instruction outside each set, that runs. -/
theorem witness_frames : writesPc .sys = false ∧ drawsPixels .sys = false ∧ writesI .sys = false ∧ writesV .sys 0xF = false ∧
    writesV (.load 0xF) 0xF = false ∧ writesV (.load 3) 3 = false ∧ (∀ n, Instr.sys ≠ .call n) ∧ Instr.sys ≠ .ret ∧
    (∀ x, Instr.sys ≠ .store x) ∧ (∃ t, exec .sys r0 = .next t ∧ t.fault = none) ∧ ∃ t, exec (.load 0xF) r0 = .next t :=
  ⟨rfl, rfl, rfl, rfl, by decide, by decide, nofun, nofun, nofun, ⟨_, rfl, rfl⟩, _, rfl⟩

/-- DirtyTracksDraws, HostDisplayTransactions, FaultTable: a draw that runs, a draw that faults, and a step while DIRTY is set. -/
theorem witness_draws : drawsPixels (.drw 0 1 2) = true ∧ (∃ t, exec .cls r0 = .next t ∧ t.fault = none) ∧
    (∃ t, exec (.drw 0 1 2) (at' 0x200#16 0xFFF#16 r0) = .next t ∧ t.fault ≠ none) ∧
    ∃ t, exec .sys { r0 with dirty := true } = .next t ∧ ({ r0 with dirty := true } : State).dirty = true :=
  ⟨rfl, ⟨_, rfl, rfl⟩, ⟨_, rfl, by decide +kernel⟩, _, rfl, rfl⟩

/-- StoppedIsFixed: the self-jump at 0x200 (L2-C1), and at the last address. -/
theorem witness_stopped : StoppedAt 0x200 (r0.withFetchWord 16 0x1200) ∧
    StoppedAt 0xFFE ((at' 0xFFE#16 0 r0).withFetchWord 16 0x1FFE) :=
  ⟨⟨rfl, by decide +kernel, by decide, by decide +kernel⟩, ⟨rfl, by decide +kernel, by decide, by decide +kernel⟩⟩

/-- DrwBlits (both clauses), DrawTwiceRestores, FaultTable: height 0 anywhere, the last byte, one past it. -/
theorem witness_drw : ((0 : Height).toNat = 0 ∨ (at' 0 0xFFFF#16 r0).i.toNat + 0 ≤ 4096) ∧
    (at' 0 0xFFF#16 r0).i.toNat + (1 : Height).toNat ≤ 4096 ∧ (2 : Height).toNat ≠ 0 ∧
    4096 < (at' 0 0xFFF#16 r0).i.toNat + (2 : Height).toNat ∧ 4096 < (at' 0 0xFFFF#16 r0).i.toNat + (1 : Height).toNat ∧
    (0 : RegIdx) ≠ 0xF#4 ∧ (0xE : RegIdx) ≠ 0xF#4 := by decide

/-- DrwBlits: a pixel the sprite covers (wrapped in both axes), one it does not, a nonzero row and a zero one (L3-P3). -/
theorem witness_covers :
    SpriteCovers (loadImage 0x300 [0xC3#8, 0x81#8] []) 0x300 62 31 2 5 0 ∧
    ¬ SpriteCovers (loadImage 0x300 [0xC3#8, 0x81#8] []) 0x300 62 31 0 5 0 ∧
    (∃ r, r < 2 ∧ Memory.read (loadImage 0x300 [0xC3#8, 0x81#8] []) (0x300 + r) ≠ 0x00#8) ∧
    (∀ r, r < 2 → Memory.read (loadImage 0x300 [0xC3#8, 0x81#8] []) (0x400 + r) = 0x00#8) :=
  ⟨⟨1, 7, by decide +kernel⟩, fun ⟨_, _, h, _⟩ => absurd h (by omega), ⟨0, by decide +kernel⟩, by decide +kernel⟩

/-- DisplayIsNotRead: a state that steps and one that stops. -/
theorem witness_display : (∃ t, step r0 = .next t) ∧
    step { r0 with fault := some (.fetchOutOfRange 0x1000#16) } = .fault (.fetchOutOfRange 0x1000#16) := ⟨⟨_, rfl⟩, rfl⟩

/-- AddRegAdds and SubRegSubtracts: sums 255 and 256, a difference 0 and a borrow of 1. -/
theorem witness_alu : ((withV [(1, 0xFF#8)] r0).getV 1).toNat + ((withV [(1, 0xFF#8)] r0).getV 2).toNat ≤ 255 ∧
    255 < ((withV [(1, 0xFF#8), (2, 1#8)] r0).getV 1).toNat + ((withV [(1, 0xFF#8), (2, 1#8)] r0).getV 2).toNat ∧
    ((withV [(1, 1#8), (2, 1#8)] r0).getV 2).toNat ≤ ((withV [(1, 1#8), (2, 1#8)] r0).getV 1).toNat ∧
    ((withV [(2, 1#8)] r0).getV 1).toNat < ((withV [(2, 1#8)] r0).getV 2).toNat := by decide +kernel

/-- ShlShifts: x is VF and is not, z is neither. -/
theorem witness_shl : (0xE : RegIdx) ≠ 0xF#4 ∧ (1 : RegIdx) ≠ 0xE ∧ (1 : RegIdx) ≠ 0xF#4 := by decide

/-- AddILitAdds, AddIRegAdds, LdFAddsGlyphOffset, IndexAddition: the sums 0xFFFF and 0x10000, and the greatest addend. -/
theorem witness_index : (at' 0 0xFFFE#16 r0).i.toNat + (1 : RegIdx).toNat ≤ 0xFFFF ∧
    0xFFFF < (at' 0 0xFFFE#16 r0).i.toNat + (2 : RegIdx).toNat ∧
    (withV [(1, 1#8)] (at' 0 0xFFFE#16 r0)).i.toNat + ((withV [(1, 1#8)] (at' 0 0xFFFE#16 r0)).getV 1).toNat ≤ 0xFFFF ∧
    0xFFFF < (withV [(1, 1#8)] (at' 0 0xFFFF#16 r0)).i.toNat + ((withV [(1, 1#8)] (at' 0 0xFFFF#16 r0)).getV 1).toNat ∧
    (withV [(1, 1#8)] (at' 0 0xFFFA#16 r0)).i.toNat + 5 * ((withV [(1, 1#8)] (at' 0 0xFFFA#16 r0)).getV 1).toNat ≤ 0xFFFF ∧
    0xFFFF < (withV [(1, 1#8)] (at' 0 0xFFFB#16 r0)).i.toNat + 5 * ((withV [(1, 1#8)] (at' 0 0xFFFB#16 r0)).getV 1).toNat ∧
    0xFFFF < (at' 0 0xFB05#16 r0).i.toNat + 1275 := by decide +kernel

/-- StoreWritesBlock and LoadReadsBlock (both clauses), FaultTable: x = 0 anywhere, the last byte, one past it. -/
theorem witness_block : (0 : RegIdx).toNat = 0 ∧ (at' 0 0xFFF#16 r0).i.toNat + (1 : RegIdx).toNat ≤ 4096 ∧ Memory.wf r0.mem ∧
    (2 : RegIdx).toNat ≠ 0 ∧ 4096 < (at' 0 0xFFF#16 r0).i.toNat + (2 : RegIdx).toNat ∧
    4096 < (at' 0 0x1000#16 r0).i.toNat + (1 : RegIdx).toNat ∧ (0xE : RegIdx).toNat < (0xF : RegIdx).toNat ∧
    (0 : RegIdx).toNat < (1 : RegIdx).toNat := by decide

end Sys2Proof.Tests
end

section
/-! PROOF. The decoder against the opcode table and family by family (spec/30_encoding.md R79 to R85): O3 and O5. -/

namespace Sys2Proof

open Sys2Proof.Laws

/-! A word put together again from its fields (R75, R76). -/

section
variable {w : Word} {o n : BitVec 4}

theorem formA_of_fields (ho : (fieldOp w).toNat = o.toNat) : formA o (fieldNNN w) = w := by
  apply BitVec.eq_of_toNat_eq
  rw [toNat_fieldOp] at ho
  rw [toNat_formA, toNat_fieldNNN]
  omega

theorem formXB_of_fields (ho : (fieldOp w).toNat = o.toNat) : formXB o (fieldX w) (fieldNN w) = w := by
  apply BitVec.eq_of_toNat_eq
  rw [toNat_fieldOp] at ho
  rw [toNat_formXB, toNat_fieldX, toNat_fieldNN]
  omega

theorem formXF_of_fields {ff : Byte} (ho : (fieldOp w).toNat = o.toNat) (hnn : fieldNN w = ff) :
    formXB o (fieldX w) ff = w :=
  hnn ▸ formXB_of_fields ho

theorem formXYN_of_fields (ho : (fieldOp w).toNat = o.toNat) (hn : (fieldN w).toNat = n.toNat) :
    formXYN o (fieldX w) (fieldY w) n = w := by
  apply BitVec.eq_of_toNat_eq
  rw [toNat_fieldOp] at ho
  rw [toNat_fieldN] at hn
  rw [toNat_formXYN, toNat_fieldX, toNat_fieldY]
  omega

end

/-! The decoder drops no bit of a word it recognises. -/

section
variable {w : Word} {i j : Instr}

theorem encode_of_decodeFamily0 (h : decodeFamily0 w = some i) : encode i = w := by
  unfold decodeFamily0 at h
  split at h
  · next hw => cases h; exact hw.symm
  split at h
  · next hw => cases h; exact hw.symm
  split at h
  · next hw => cases h; exact hw.symm
  · cases h

/-- The families 5 and 9 give their one instruction, on low nibble 0 alone (R79, R81). -/
theorem decodeLow0_eq_some (h : decodeLow0 w j = some i) : fieldN w = 0x0#4 ∧ j = i := by
  unfold decodeLow0 at h
  split at h
  · next hn => cases h; exact ⟨hn, rfl⟩
  · cases h

theorem encode_of_decodeFamily8 (ho : (fieldOp w).toNat = 0x8) (h : decodeFamily8 w = some i) : encode i = w := by
  unfold decodeFamily8 at h
  split at h
  case h_7 => cases h
  all_goals
    next hn => cases h; exact formXYN_of_fields ho hn

theorem encode_of_decodeFamilyF (ho : (fieldOp w).toNat = 0xF) (h : decodeFamilyF w = some i) : encode i = w := by
  unfold decodeFamilyF at h
  split at h
  · next hnn => cases h; exact formXF_of_fields ho hnn
  split at h
  · next hnn => cases h; exact formXF_of_fields ho hnn
  split at h
  · next hnn => cases h; exact formXF_of_fields ho hnn
  split at h
  · next hnn => cases h; exact formXF_of_fields ho hnn
  split at h
  · next hnn => cases h; exact formXF_of_fields ho hnn
  · cases h

/-- A recognised word is the word of the instruction it decodes to. -/
theorem encode_of_decodeWord (h : decodeWord w = some i) : encode i = w := by
  unfold decodeWord at h
  split at h
  · exact encode_of_decodeFamily0 h
  · next ho => cases h; exact formA_of_fields ho
  · next ho => cases h; exact formA_of_fields ho
  · next ho => cases h; exact formXB_of_fields ho
  · next ho => cases h; exact formXB_of_fields ho
  · next ho =>
    obtain ⟨hn, rfl⟩ := decodeLow0_eq_some h
    exact formXYN_of_fields ho (congrArg BitVec.toNat hn)
  · next ho => cases h; exact formXB_of_fields ho
  · next ho => cases h; exact formXB_of_fields ho
  · next ho => exact encode_of_decodeFamily8 ho h
  · next ho =>
    obtain ⟨hn, rfl⟩ := decodeLow0_eq_some h
    exact formXYN_of_fields ho (congrArg BitVec.toNat hn)
  · next ho => cases h; exact formA_of_fields ho
  · next ho => cases h; exact formA_of_fields ho
  · next ho => cases h; exact formXB_of_fields ho
  · next ho => cases h; exact formXYN_of_fields ho rfl
  · next ho => exact encode_of_decodeFamilyF ho h
  · cases h

end

/-- Every instruction's word matches its row of the table: the law of each constructor, put together (R80). -/
theorem encodedRow (i : Instr) : EncodedRow.Statement i :=
  match i with
  | .sys => EncodedRow.sys
  | .cls => EncodedRow.cls
  | .ret => EncodedRow.ret
  | .jp nnn => EncodedRow.jp nnn
  | .call nnn => EncodedRow.call nnn
  | .seImm x nn => EncodedRow.seImm x nn
  | .sneImm x nn => EncodedRow.sneImm x nn
  | .seReg x y => EncodedRow.seReg x y
  | .ldImm x nn => EncodedRow.ldImm x nn
  | .addImm x nn => EncodedRow.addImm x nn
  | .ldReg x y => EncodedRow.ldReg x y
  | .andReg x y => EncodedRow.andReg x y
  | .xorReg x y => EncodedRow.xorReg x y
  | .addReg x y => EncodedRow.addReg x y
  | .subReg x y => EncodedRow.subReg x y
  | .shl x y => EncodedRow.shl x y
  | .sneReg x y => EncodedRow.sneReg x y
  | .ldI nnn => EncodedRow.ldI nnn
  | .jpV0 nnn => EncodedRow.jpV0 nnn
  | .rnd x nn => EncodedRow.rnd x nn
  | .drw x y n => EncodedRow.drw x y n
  | .addILit x => EncodedRow.addILit x
  | .addIReg x => EncodedRow.addIReg x
  | .ldF x => EncodedRow.ldF x
  | .store x => EncodedRow.store x
  | .load x => EncodedRow.load x

/-! The words a family does not recognise, by the number of the word. -/

section
variable (w : Word)

theorem fieldN_eq_iff (n : BitVec 4) : fieldN w = n ↔ w.toNat % 16 = n.toNat := by
  rw [← BitVec.toNat_inj, toNat_fieldN]

theorem fieldNN_eq_iff (nn : Byte) : fieldNN w = nn ↔ w.toNat % 256 = nn.toNat := by
  rw [← BitVec.toNat_inj, toNat_fieldNN]

/-- A selecting test of a family, on the words that pass none of them. -/
theorem ite_some_eq_none_iff {c : Prop} [Decidable c] {i : Instr} {o : Option Instr} :
    (if c then some i else o) = none ↔ ¬ c ∧ o = none := by
  by_cases h : c <;> simp [h]

theorem decodeFamily0_eq_none_iff :
    decodeFamily0 w = none ↔ w.toNat ≠ 0x0000 ∧ w.toNat ≠ 0x00E0 ∧ w.toNat ≠ 0x00EE := by
  simp [decodeFamily0, ite_some_eq_none_iff, ← BitVec.toNat_inj]

theorem decodeLow0_eq_none_iff (i : Instr) : decodeLow0 w i = none ↔ w.toNat % 16 ≠ 0 := by
  simp [decodeLow0, fieldN_eq_iff]

theorem decodeFamily8_eq_none_iff : decodeFamily8 w = none ↔
    w.toNat % 16 ∈ [0x1, 0x6, 0x7, 0x8, 0x9, 0xA, 0xB, 0xC, 0xD, 0xF] := by
  unfold decodeFamily8
  rw [toNat_fieldN]
  split
  case h_7 =>
    simp only [List.mem_cons, List.not_mem_nil, or_false, imp_false, true_iff] at *
    omega
  all_goals
    next hn => simp [hn]

theorem decodeFamilyF_eq_none_iff : decodeFamilyF w = none ↔ w.toNat % 256 ∉ [0x15, 0x1E, 0x29, 0x55, 0x65] := by
  simp [decodeFamilyF, ite_some_eq_none_iff, fieldNN_eq_iff]

end

/-- Settles O5, by the first nibble: a family with selecting literals fails where they do, family E always, and the others
never. -/
theorem unrecognizedWords : Obligations.UnrecognizedWords := by
  unfold Obligations.UnrecognizedWords
  intro w
  have hzero : w.toNat < 0x1000 ↔ w.toNat / 0x1000 = 0x0 := by omega
  unfold decodeWord
  rw [toNat_fieldOp, hzero]
  split
  case h_1 ho => simp [ho, decodeFamily0_eq_none_iff]
  case h_6 ho => simp [ho, decodeLow0_eq_none_iff]
  case h_9 ho => simp [ho, decodeFamily8_eq_none_iff]
  case h_10 ho => simp [ho, decodeLow0_eq_none_iff]
  case h_15 ho => simp [ho, decodeFamilyF_eq_none_iff]
  case h_16 =>
    have hE : w.toNat / 0x1000 = 0xE := by
      have := w.isLt
      simp only [imp_false] at *
      omega
    simp [hE]
  all_goals
    next ho => simp [ho]

/-! The rows: what a row compares is what the decoder selects by. A field that a mask keeps whole is the field of the masked
word. -/

section
variable {w m v : Word}

theorem extractLsb'_of_and_eq {start len : Nat} (h : w &&& m = v)
    (hm : m.extractLsb' start len = BitVec.allOnes len) : w.extractLsb' start len = v.extractLsb' start len := by
  rw [← h, BitVec.extractLsb'_and, hm, BitVec.and_allOnes]

theorem fieldOp_of_and_eq (h : w &&& m = v) (hm : fieldOp m = 0xF#4) : fieldOp w = fieldOp v :=
  extractLsb'_of_and_eq h hm

theorem fieldN_of_and_eq (h : w &&& m = v) (hm : fieldN m = 0xF#4) : fieldN w = fieldN v :=
  extractLsb'_of_and_eq h hm

theorem fieldNN_of_and_eq (h : w &&& m = v) (hm : fieldNN m = 0xFF#8) : fieldNN w = fieldNN v :=
  extractLsb'_of_and_eq h hm

theorem eq_of_and_eq (h : w &&& m = v) (hm : m = 0xFFFF#16) : w = v := by
  subst hm
  exact (BitVec.and_allOnes (w := 16)).symm.trans h

end

/-- Every row compares the first nibble, and every selecting literal of its family (R79, R81, R82). -/
theorem row_compares_literals : ∀ r ∈ opcodeTable, fieldOp r.mask = 0xF#4 ∧
    (r.value.toNat / 4096 = 0x0 → r.mask = 0xFFFF#16) ∧
    (r.value.toNat / 4096 = 0x5 ∨ r.value.toNat / 4096 = 0x8 ∨ r.value.toNat / 4096 = 0x9 → fieldN r.mask = 0xF#4) ∧
    (r.value.toNat / 4096 = 0xF → fieldNN r.mask = 0xFF#8) := by
  decide

/-- The literal digits of every row, with zero operands, are a recognised word. -/
theorem row_value_recognized : ∀ r ∈ opcodeTable, decodeWord r.value ≠ none := by
  decide

/-- No word matches two rows: on the bits that two rows both compare, they differ (R86). -/
theorem row_eq_of_matches {w : Word} {r q : Row} (hr : r ∈ opcodeTable) (hq : q ∈ opcodeTable)
    (h : w &&& r.mask = r.value) (h' : w &&& q.mask = q.value) : r = q := by
  have hdiffer : ∀ r ∈ opcodeTable, ∀ q ∈ opcodeTable, r.value &&& q.mask = q.value &&& r.mask → r = q := by
    decide
  apply hdiffer r hr q hq
  rw [← h, ← h', BitVec.and_assoc, BitVec.and_assoc, BitVec.and_comm r.mask]

/-- A word that matches a row is recognised: it has the row's selecting literals, as the row's own value has. -/
theorem decodeWord_ne_none_of_matches {w : Word} {r : Row} (hr : r ∈ opcodeTable) (h : w &&& r.mask = r.value) :
    decodeWord w ≠ none := by
  obtain ⟨ho, h0, hn, hnn⟩ := row_compares_literals r hr
  have hop : w.toNat / 4096 = r.value.toNat / 4096 := by
    rw [← toNat_fieldOp, ← toNat_fieldOp, fieldOp_of_and_eq h ho]
  have hlow (hm : fieldN r.mask = 0xF#4) : w.toNat % 16 = r.value.toNat % 16 := by
    rw [← toNat_fieldN, ← toNat_fieldN, fieldN_of_and_eq h hm]
  have hlowByte (hm : fieldNN r.mask = 0xFF#8) : w.toNat % 256 = r.value.toNat % 256 := by
    rw [← toNat_fieldNN, ← toNat_fieldNN, fieldNN_of_and_eq h hm]
  refine fun hnone => row_value_recognized r hr ((unrecognizedWords r.value).2 ?_)
  rcases (unrecognizedWords w).1 hnone with hw | hw | hw | hw | hw | hw
  · rw [← eq_of_and_eq h (h0 (by omega))]; exact .inl hw
  · rw [← hop, ← hlow (hn (by omega))]; exact .inr (.inl hw)
  · rw [← hop, ← hlow (hn (by omega))]; exact .inr (.inr (.inl hw))
  · rw [← hop, ← hlow (hn (by omega))]; exact .inr (.inr (.inr (.inl hw)))
  · rw [← hop]; exact .inr (.inr (.inr (.inr (.inl hw))))
  · rw [← hop, ← hlowByte (hnn (by omega))]; exact .inr (.inr (.inr (.inr (.inr hw))))

/-- Settles O3: the word of the decoded instruction, which is the word decoded, matches its row; and a word that matches a row
decodes to an instruction, whose row matches too and so is that row. -/
theorem decodeFollowsTable : Obligations.DecodeFollowsTable := by
  unfold Obligations.DecodeFollowsTable
  intro w
  have hown : ∀ i, decodeWord w = some i → i.row ∈ opcodeTable ∧ w &&& i.row.mask = i.row.value := by
    intro i hi
    obtain ⟨hrow, hmem⟩ := encodedRow i
    rw [encode_of_decodeWord hi] at hrow
    exact ⟨hmem, hrow⟩
  refine ⟨hown, fun r hr h => ?_⟩
  obtain ⟨i, hi⟩ := Option.ne_none_iff_exists'.1 (decodeWord_ne_none_of_matches hr h)
  obtain ⟨hmem, hrow⟩ := hown i hi
  exact ⟨i, hi, row_eq_of_matches hmem hr hrow h⟩

end Sys2Proof
end

section
/-! PROOF. The Faulted condition (spec/30_encoding.md R71; spec/60_exceptions.md R228, R229): O10. -/

namespace Sys2Proof.Machine

/-! A fault that a step raises. -/

section
variable {s t : State} {f : Fault}

/-- Latching a fault changes nothing but the latch. -/
theorem onlyLatch_setFault (f : Fault) (s : State) : OnlyLatch s { s with fault := some f } := by
  obtain ⟨_, ⟨⟩, -, h⟩ := takeFault_raises f s
  exact h

/-- An instruction latches its own fault, and nothing else, or leaves the latch as it was. -/
theorem ExecNext.fault_cases {i : Instr} (h : ExecNext i s t) :
    (∃ f, f.code = ownFaultCode i ∧ f.pc = s.pc ∧ t = { s with fault := some f }) ∨ t.fault = s.fault := by
  cases h
  case fault f hcode hpc => exact .inl ⟨f, hcode, hpc, rfl⟩
  case shl => rw [shlWith_eq]; exact .inr rfl
  all_goals exact .inr (by simp)

/-- A step that ends with a fault latched has latched it at its own pc and done nothing else (R71, R228). -/
theorem step_next_faulted (h : step s = .next t) (hf : t.fault = some f) :
    f.pc = s.pc ∧ t = { s with fault := some f } := by
  obtain ⟨hs, ⟨-, rfl⟩ | ⟨-, -, rfl⟩ | ⟨-, i, -, he⟩⟩ := step_next_cases h
  · cases hf; exact ⟨rfl, rfl⟩
  · cases hf; exact ⟨rfl, rfl⟩
  · obtain ⟨g, -, hg, rfl⟩ | hsame := (exec_next_cases he).fault_cases
    · cases hf; exact ⟨hg, rfl⟩
    · rw [hsame, hs] at hf; cases hf

theorem stepTransaction_of_next_faulted (h : step s = .next t) (hf : t.fault = some f) :
    stepTransaction s = (t, .faulted f) := by
  simp only [stepTransaction, h, hf]

end

/-! The transactions on a Faulted block. -/

section
variable {s t u : State} {f : Fault}

theorem OnlyDirty.refl (s : State) : OnlyDirty s s :=
  ⟨fun _ => rfl, rfl, rfl, ⟨rfl, rfl⟩, fun _ _ => rfl, fun _ => rfl, rfl, rfl⟩

theorem OnlyDirty.trans (h : OnlyDirty s t) (h' : OnlyDirty t u) : OnlyDirty s u := by
  obtain ⟨hv, hi, hpc, ⟨hsp, hst⟩, hfb, hm, hf, hd⟩ := h
  obtain ⟨hv', hi', hpc', ⟨hsp', hst'⟩, hfb', hm', hf', hd'⟩ := h'
  exact ⟨fun y => (hv' y).trans (hv y), hi'.trans hi, hpc'.trans hpc, ⟨hsp'.trans hsp, hst'.trans hst⟩,
    fun c r => (hfb' c r).trans (hfb c r), fun a => (hm' a).trans (hm a), hf'.trans hf, hd'.trans hd⟩

theorem OnlyDirty.fault_eq (h : OnlyDirty s t) : t.fault = s.fault := by
  obtain ⟨-, -, -, -, -, -, hf, -⟩ := h
  exact hf

theorem onlyDirty_clearDirty (s : State) : OnlyDirty s (clearDirty s) :=
  ⟨fun _ => rfl, rfl, rfl, ⟨rfl, rfl⟩, fun _ _ => rfl, fun _ => rfl, rfl, rfl⟩

theorem stepTransaction_of_fault (h : s.fault = some f) : stepTransaction s = (s, .faulted f) := by
  simp only [stepTransaction, step_of_fault h]

/-- One transaction on a Faulted block changes nothing but DIRTY. -/
theorem onlyDirty_transact (h : s.fault = some f) (a : Transaction) : OnlyDirty s (transact a s).1 := by
  cases a with
  | step => rw [transact, stepTransaction_of_fault h]; exact .refl s
  | needsRedraw => exact .refl s
  | clearDirty => exact onlyDirty_clearDirty s
  | readFramebuffer => exact .refl s

/-- No sequence of transactions on a Faulted block changes anything but DIRTY (R228). -/
theorem onlyDirty_transactAll (ts : List Transaction) : ∀ {s : State}, s.fault = some f → OnlyDirty s (transactAll ts s).1 := by
  induction ts with
  | nil => exact fun {s} _ => .refl s
  | cons a ts ih =>
    intro s h
    have hone := onlyDirty_transact h a
    exact hone.trans (ih (hone.fault_eq.trans h))

end

/-- A newly constructed block is not Faulted (R251). -/
theorem construct_fault {p : ResetParams} {img : List Byte} {t : State} (h : construct p img = .next t) :
    t.fault = none := by
  unfold construct at h
  split at h
  · cases h; rfl
  · cases h

/-- Settles O10: a raising step is `step_next_faulted`, a Faulted block is kept by every transaction, and so by induction by
every sequence of them. -/
theorem faultedCondition : Obligations.FaultedCondition := by
  unfold Obligations.FaultedCondition
  refine ⟨fun s t f _ h hf => ?_, fun s f hf => ?_, fun p img t h => construct_fault h⟩
  · obtain ⟨hpc, ht⟩ := step_next_faulted h hf
    exact ⟨ht ▸ onlyLatch_setFault f s, hpc, stepTransaction_of_next_faulted h hf⟩
  · refine ⟨step_of_fault hf, stepTransaction_of_fault hf, rfl, rfl, rfl, rfl, fun ts => ?_⟩
    have hkept := onlyDirty_transactAll ts hf
    exact ⟨hkept.fault_eq.trans hf, hkept⟩

end Sys2Proof.Machine
end

section
/-! PROOF. The control flow instructions (spec/40_control_flow.md R100 to R109): O19 to O22 and O24 to O26. -/

namespace Sys2Proof.Machine

/-! Jumps: a step that ends in `setPc` is known by its target, and nothing but pc changes. -/

theorem onlyPc_setPc (s : State) (w : Word) : OnlyPc s (s.setPc w) :=
  ⟨fun _ => rfl, rfl, ⟨rfl, rfl⟩, ⟨fun _ _ => rfl, rfl⟩, fun _ => rfl, rfl, rfl⟩

/-- Settles O19: the advance is a `setPc`. -/
theorem sysDoesNothing : Obligations.SysDoesNothing :=
  fun s => ⟨s.advance, rfl, rfl, onlyPc_setPc s _⟩

/-- Settles O21: the jump overwrites the advanced pc. -/
theorem jpJumps : Obligations.JpJumps :=
  fun s nnn => ⟨s.advance.setPc (zextAddr nnn), rfl, toNat_zextAddr nnn, onlyPc_setPc s _⟩

/-- Settles O26: the jump overwrites the advanced pc, and the sum fits a word. -/
theorem jpV0Jumps : Obligations.JpV0Jumps :=
  fun s nnn => ⟨s.advance.setPc (offsetTarget nnn (s.getV v0)), rfl, toNat_offsetTarget nnn _, onlyPc_setPc s _⟩

/-! Skips (R103). -/

section
variable (s : State)

/-- The advance and the conditional skip together are one write of pc. -/
theorem advance_skipIf_eq (c : Bool) : s.advance.skipIf c = s.setPc (if c then s.pc + 4 else s.pc + 2) := by
  cases c with
  | false => rfl
  | true =>
    have hpc : s.pc + 2#16 + 2#16 = s.pc + 4 := BitVec.add_assoc s.pc 2#16 2#16
    exact congrArg s.setPc hpc

theorem onlyPc_advance_skipIf (c : Bool) : OnlyPc s (s.advance.skipIf c) :=
  advance_skipIf_eq s c ▸ onlyPc_setPc s _

theorem pc_advance_skipIf_beq (a b : Byte) :
    (s.advance.skipIf (a == b)).pc = if a = b then s.pc + 4 else s.pc + 2 := by
  simp only [advance_skipIf_eq, State.setPc_pc, beq_iff_eq]

theorem pc_advance_skipIf_bne (a b : Byte) :
    (s.advance.skipIf (a != b)).pc = if a = b then s.pc + 2 else s.pc + 4 := by
  simp only [advance_skipIf_eq, State.setPc_pc, bne_iff_ne, ite_not]

end

/-- Settles O24: the two conditional skips, on V[x] against the immediate. -/
theorem immediateSkips : Obligations.ImmediateSkips :=
  ⟨fun s _ _ => ⟨_, rfl, pc_advance_skipIf_beq s _ _, onlyPc_advance_skipIf s _⟩,
    fun s _ _ => ⟨_, rfl, pc_advance_skipIf_bne s _ _, onlyPc_advance_skipIf s _⟩⟩

/-- Settles O25: the same two conditional skips, on V[x] against V[y]. -/
theorem registerSkips : Obligations.RegisterSkips :=
  ⟨fun s _ _ => ⟨_, rfl, pc_advance_skipIf_beq s _ _, onlyPc_advance_skipIf s _⟩,
    fun s _ _ => ⟨_, rfl, pc_advance_skipIf_bne s _ _, onlyPc_advance_skipIf s _⟩⟩

/-! The return-address stack (R28). -/

/-- Whatever is written to pc, the stack and SP, nothing else changes. -/
theorem onlyPcStack_set (s : State) (w : Word) (st : Vector Word stackEntries) (n : Fin (stackEntries + 1)) :
    OnlyPcStack s { s with pc := w, stack := st, sp := n } :=
  ⟨fun _ => rfl, rfl, ⟨fun _ _ => rfl, rfl⟩, fun _ => rfl, rfl, rfl⟩

theorem State.top_eq_getElem {s : State} {k : Nat} (h : s.sp.val = k + 1) (hk : k < 16) : s.top = s.stack[k]'hk := by
  simp only [State.top, h, Nat.add_sub_cancel]

theorem State.push_sp_val (s : State) (w : Word) (h : s.sp.val < 16) : (s.push w).sp.val = s.sp.val + 1 := by
  rw [State.push_sp, Fin.val_ofNat]
  exact Nat.mod_eq_of_lt (Nat.succ_lt_succ h)

theorem State.getElem_push_stack (s : State) (w : Word) (k : Nat) (hk : k < 16) :
    (s.push w).stack[k]'hk = if k = s.sp.val then w else s.stack[k]'hk := by
  simp only [State.push_stack, Vector.getElem_setIfInBounds, eq_comm]

/-! Return (R101). -/

section
variable {s : State}

theorem exec_ret_of_empty (h : s.sp.val = 0) : exec .ret s = takeFault (.stackUnderflow s.pc) s := if_pos h

theorem exec_ret_of_ne_zero (h : s.sp.val ≠ 0) : exec .ret s = .next (s.advance.drop.setPc s.top) := if_neg h

end

/-- Settles O20: by SP, a pop or the underflow. -/
theorem retPops : Obligations.RetPops := by
  unfold Obligations.RetPops
  refine ⟨fun s k hk hsp => ?_, fun s hsp => ?_⟩
  · refine ⟨_, exec_ret_of_ne_zero (by omega), State.top_eq_getElem hsp hk, ?_, rfl, onlyPcStack_set s _ _ _⟩
    simp only [State.setPc_sp, State.drop_sp, State.advance_sp, hsp, Nat.add_sub_cancel]
  · exact exec_ret_of_empty hsp ▸ takeFault_raises _ s

/-! Call (R104), under any STACK_MAX_DEPTH that the stack's entries allow (D8). -/

section
variable {s : State} {depth : Nat} (nnn : Addr12)

theorem callWith_of_full (h : depth ≤ s.sp.val) : callWith depth nnn s = takeFault (.stackOverflow s.pc) s := if_pos h

theorem callWith_of_lt (h : s.sp.val < depth) :
    callWith depth nnn s = .next ((s.advance.push s.advance.pc).setPc (zextAddr nnn)) := if_neg (Nat.not_le.2 h)

/-- A call below the depth limit completes: the whole new state. -/
theorem callWith_pushes (hdepth : depth ≤ 16) (h : s.sp.val < depth) : ∃ t, callWith depth nnn s = .next t ∧
    t.pc.toNat = nnn.toNat ∧ t.sp.val = s.sp.val + 1 ∧
    (∀ (k : Nat) (hk : k < 16), t.stack[k]'hk = if k = s.sp.val then s.pc + 2 else s.stack[k]'hk) ∧ OnlyPcStack s t :=
  ⟨_, callWith_of_lt nnn h, toNat_zextAddr nnn, s.advance.push_sp_val s.advance.pc (Nat.lt_of_lt_of_le h hdepth),
    s.advance.getElem_push_stack s.advance.pc, onlyPcStack_set s _ _ _⟩

theorem callWith_raises (h : depth ≤ s.sp.val) : Raises (.stackOverflow s.pc) s (callWith depth nnn s) :=
  callWith_of_full nnn h ▸ takeFault_raises _ s

end

/-- Settles O22: a call with STACK_MAX_DEPTH = 15. -/
theorem callPushes : Obligations.CallPushes :=
  ⟨fun _ nnn h => callWith_pushes nnn (by decide) h, fun _ nnn h => callWith_raises nnn h.ge⟩

end Sys2Proof.Machine
end

section
/-! PROOF. The display (spec/41_display.md R130 to R144): O31, O33, O36 and O38. -/

namespace Sys2Proof.Machine

/-- Settles O31: the state that `00E0` ends in has the blank framebuffer, whose pixels are all false. -/
theorem clsClears : Obligations.ClsClears :=
  fun s => ⟨{ s.advance with fb := clearFb, dirty := true }, rfl, pixel_clearFb, rfl, rfl, fun _ => rfl, rfl, ⟨rfl, rfl⟩,
    fun _ => rfl, rfl, rfl⟩

/-! The blit: its pixels by the sprite's footprint, and its flip by the sprite's bytes (R137, R138). -/

section
variable {m : Memory} {base cx cy n : Nat} {fb : Framebuffer} {c : Fin fbW} {r : Fin fbH}

theorem drawSprite_pixel_of_covers (hn : n ≤ 15) (h : SpriteCovers m base cx cy n c r) :
    (drawSprite m base cx cy n fb).1.pixel c r = !fb.pixel c r := by
  obtain ⟨-, hpixel⟩ := drawRows_spec m base cx cy fb n hn
  specialize hpixel c r
  rw [if_pos ((spriteCovers_iff ..).1 h), ← Bool.not_eq_true'] at hpixel
  exact Bool.eq_iff_iff.2 hpixel

theorem drawSprite_pixel_of_not_covers (hn : n ≤ 15) (h : ¬ SpriteCovers m base cx cy n c r) :
    (drawSprite m base cx cy n fb).1.pixel c r = fb.pixel c r := by
  obtain ⟨-, hpixel⟩ := drawRows_spec m base cx cy fb n hn
  specialize hpixel c r
  rw [if_neg (mt (spriteCovers_iff ..).2 h)] at hpixel
  exact Bool.eq_iff_iff.2 hpixel

/-- Some toggle flips exactly when some sprite byte is nonzero, whatever the framebuffer held (R138). -/
theorem drawSprite_flips_iff (hn : n ≤ 15) :
    (drawSprite m base cx cy n fb).2 = true ↔ ∃ k, k < n ∧ m.read (base + k) ≠ 0x00#8 := by
  obtain ⟨hflip, -⟩ := drawRows_spec m base cx cy fb n hn
  simpa only [byte_ne_zero_iff, exists_and_left, drawSprite] using hflip

/-- The flag of a draw, with a nonzero sprite byte and without. -/
theorem drawFlag_drawSprite_of_nonzero (hn : n ≤ 15) (h : ∃ k, k < n ∧ m.read (base + k) ≠ 0x00#8) :
    drawFlag (drawSprite m base cx cy n fb).2 = 0x01#8 :=
  congrArg drawFlag ((drawSprite_flips_iff hn).2 h)

theorem drawFlag_drawSprite_of_zero (hn : n ≤ 15) (h : ∀ k, k < n → m.read (base + k) = 0x00#8) :
    drawFlag (drawSprite m base cx cy n fb).2 = 0x00#8 := by
  have hflip : ¬ (drawSprite m base cx cy n fb).2 = true := by
    rw [drawSprite_flips_iff hn]
    exact fun ⟨k, hk, hne⟩ => hne (h k hk)
  exact congrArg drawFlag (Bool.eq_false_iff.2 hflip)

end

/-! `Dxyn`: by the range check, a blit or the fault (R133). -/

section
variable {s : State} {n : Height} (x y : RegIdx)

theorem exec_drw_of_inRange (h : n.toNat = 0 ∨ s.i.toNat + n.toNat ≤ memSize) : exec (.drw x y n) s =
    .next (finishDraw (drawSprite s.mem s.i.toNat (s.getV x).toNat (s.getV y).toNat n.toNat s.fb) s.advance) := by
  simp only [exec, execDrw, firstOutOfRange_eq_none.2 h]

theorem exec_drw_of_outOfRange (h0 : n.toNat ≠ 0) (h : memSize < s.i.toNat + n.toNat) :
    exec (.drw x y n) s = takeFault (.memReadOutOfRange s.pc (max s.i.toNat memSize)) s := by
  simp only [exec, execDrw, firstOutOfRange_eq_max h0 h]

end

/-! A draw writes VF, and no other register (R138). -/

theorem finishDraw_getV_vF (d : Framebuffer × Bool) (s : State) : (finishDraw d s).getV vF = drawFlag d.2 :=
  State.getV_setV_same s vF (drawFlag d.2)

theorem sameVBut_finishDraw (d : Framebuffer × Bool) (s : State) : SameVBut vF s (finishDraw d s) :=
  fun _ hy => State.getV_setV_of_ne s (drawFlag d.2) hy

/-- Settles O33: in range, the blit's pixels and flip, and only VF, the display and pc are written; else the fault, at the
lowest address out of range. -/
theorem drwBlits : Obligations.DrwBlits := by
  unfold Obligations.DrwBlits
  refine ⟨fun s x y n h => ?_, fun s x y n h0 h => ?_⟩
  · have hn : n.toNat ≤ 15 := Nat.le_of_lt_succ n.isLt
    refine ⟨_, exec_drw_of_inRange x y h, fun c r => drawSprite_pixel_of_covers hn,
      fun c r => drawSprite_pixel_of_not_covers hn, fun hne => ?_, fun hz => ?_, rfl, rfl,
      sameVBut_finishDraw _ s.advance, rfl, ⟨rfl, rfl⟩, fun _ => rfl, rfl, rfl⟩
    · exact (finishDraw_getV_vF _ _).trans (drawFlag_drawSprite_of_nonzero hn hne)
    · exact (finishDraw_getV_vF _ _).trans (drawFlag_drawSprite_of_zero hn hz)
  · exact exec_drw_of_outOfRange x y h0 h ▸ takeFault_raises _ s

/-! DIRTY (R141). -/

/-- An instruction latches its fault and leaves DIRTY, or executes, and then DIRTY is set exactly by the drawing ones. -/
theorem ExecNext.dirty_cases {i : Instr} {s t : State} (h : ExecNext i s t) :
    (t.fault ≠ none ∧ t.dirty = s.dirty) ∨ (t.fault = s.fault ∧ t.dirty = (drawsPixels i || s.dirty)) := by
  cases h
  case fault => exact .inl ⟨nofun, rfl⟩
  case shl => rw [shlWith_eq]; exact .inr ⟨rfl, rfl⟩
  all_goals exact .inr ⟨by simp, by simp [drawsPixels]⟩

/-- Settles O36: an instruction that executes leaves the running block's latch empty, so the fault tells the two cases of
`ExecNext.dirty_cases` apart. -/
theorem dirtyTracksDraws : Obligations.DirtyTracksDraws := by
  unfold Obligations.DirtyTracksDraws
  intro i s t hs h
  obtain ⟨hfault, hdirty⟩ | ⟨hfault, hdirty⟩ := (exec_next_cases h).dirty_cases
  · exact ⟨fun _ hf => absurd hf hfault, fun _ _ => hdirty, fun _ => hdirty⟩
  · refine ⟨fun hi _ => ?_, fun _ hf => absurd (hfault.trans hs) hf, fun hi => ?_⟩
    · rw [hdirty, hi, Bool.true_or]
    · rw [hdirty, hi, Bool.false_or]

/-- No instruction clears DIRTY. -/
theorem ExecNext.dirty_of_dirty {i : Instr} {s t : State} (h : ExecNext i s t) (hs : s.dirty = true) : t.dirty = true := by
  obtain ⟨-, hdirty⟩ | ⟨-, hdirty⟩ := h.dirty_cases
  · rw [hdirty, hs]
  · rw [hdirty, hs, Bool.or_true]

/-- Settles O38: the queries answer from the state they keep, the command writes DIRTY alone, and no instruction clears it. -/
theorem hostDisplayTransactions : Obligations.HostDisplayTransactions :=
  fun s => ⟨rfl, rfl, ⟨clearDirty s, rfl, rfl, onlyDirty_clearDirty s⟩, fun _ _ h => (exec_next_cases h).dirty_of_dirty⟩

end Sys2Proof.Machine
end

section
/-! PROOF. The ALU and the registers (spec/42_alu.md R160 to R167): O40 to O46. -/

namespace Sys2Proof.Machine

open Sys2Proof.Laws

/-! One write of V[x] after the advance, whatever the byte (R160 to R164). -/

theorem onlyPcV_advance_setV (s : State) (x : RegIdx) (b : Byte) : OnlyPcV x s (s.advance.setV x b) :=
  ⟨fun _ hy => State.getV_setV_of_ne s.advance b hy, rfl, ⟨rfl, rfl⟩, ⟨fun _ _ => rfl, rfl⟩, fun _ => rfl, rfl, rfl⟩

theorem getV_advance_setV (s : State) (x : RegIdx) (b : Byte) : (s.advance.setV x b).getV x = b :=
  State.getV_setV_same s.advance x b

/-- Settles O40: the byte written is the immediate. -/
theorem ldImmLoads : Obligations.LdImmLoads :=
  fun s x nn => ⟨_, rfl, getV_advance_setV s x nn, rfl, onlyPcV_advance_setV s x nn⟩

/-- Settles O41: the byte written is the sum of two bytes, which wraps by itself. -/
theorem addImmWraps : Obligations.AddImmWraps := by
  unfold Obligations.AddImmWraps
  intro s x nn
  refine ⟨_, rfl, ?_, rfl, onlyPcV_advance_setV s x _⟩
  rw [getV_advance_setV, BitVec.toNat_add]

/-- Settles O42: the byte written is V[y]. -/
theorem ldRegCopies : Obligations.LdRegCopies :=
  fun s x _ => ⟨_, rfl, getV_advance_setV s x _, rfl, onlyPcV_advance_setV s x _⟩

/-- Settles O43: the byte written is the AND, and the XOR. -/
theorem andXorRegisters : Obligations.AndXorRegisters :=
  ⟨fun s x _ => ⟨_, rfl, getV_advance_setV s x _, rfl, onlyPcV_advance_setV s x _⟩,
    fun s x _ => ⟨_, rfl, getV_advance_setV s x _, rfl, onlyPcV_advance_setV s x _⟩⟩

/-! The end of `8xy4` and `8xy5` (R165, R166): a result that is written, or the fault with the instruction's word. -/

section
variable {i : Instr} {x : RegIdx} {r : Option Byte} {s : State}

theorem finishAlu_writes {n : Nat} (hr : r = some (BitVec.ofNat 8 n)) (hn : n < 256) :
    ∃ t, finishAlu i x r s = .next t ∧ (t.getV x).toNat = n ∧ t.pc = s.pc + 2 ∧ OnlyPcV x s t := by
  subst hr
  refine ⟨_, rfl, ?_, rfl, onlyPcV_advance_setV s x _⟩
  rw [getV_advance_setV, BitVec.toNat_ofNat]
  exact Nat.mod_eq_of_lt hn

theorem finishAlu_raises {w : Word} (hr : r = none) (hw : encode i = w) :
    Raises (.aluOverflow s.pc w) s (finishAlu i x r s) := by
  subst hr hw
  exact takeFault_raises _ s

end

/-- The number of a word `8xyn` (R75). -/
theorem formXYN_8_eq_ofNat (x y : RegIdx) (n : BitVec 4) :
    formXYN 0x8#4 x y n = BitVec.ofNat 16 (0x8000 + n.toNat + 256 * x.toNat + 16 * y.toNat) := by
  apply BitVec.eq_of_toNat_eq
  have := x.isLt; have := y.isLt; have := n.isLt
  rw [toNat_formXYN, BitVec.toNat_ofNat, BitVec.toNat_ofNat]
  omega

/-- Settles O44: the sum by whether it fits a byte, and above it by the overflow rule. -/
theorem addRegAdds : Obligations.AddRegAdds := by
  unfold Obligations.AddRegAdds
  refine ⟨fun s x y h => ?_, fun s x y h => ?_, fun s x y h => ?_⟩
  · exact finishAlu_writes (aluSum_of_le h) (by omega)
  · exact finishAlu_raises (aluSum_of_gt h) (formXYN_8_eq_ofNat x y 0x4#4)
  · exact finishAlu_writes (aluSum_of_gt h) (by omega)

/-- Settles O45: the difference by whether there is a borrow, and with one by the overflow rule. -/
theorem subRegSubtracts : Obligations.SubRegSubtracts := by
  unfold Obligations.SubRegSubtracts
  refine ⟨fun s x y h => ?_, fun s x y h => ?_, fun s x y h => ?_⟩
  · exact finishAlu_writes (aluDiff_of_le h) (by omega)
  · exact finishAlu_raises (aluDiff_of_lt h) (formXYN_8_eq_ofNat x y 0x5#4)
  · exact finishAlu_writes (aluDiff_of_lt h) (by omega)

/-! The shift (R167): what each register holds after it, under each write order. The flag is taken from V[y] and VF may be the
register shifted, so under FlagFirst the overlap that shows is x = F (the flag is shifted), and under ResultFirst it is y = x
(the flag is the shifted byte's). -/

theorem toNat_shiftLeft_one (b : Byte) : (b <<< 1).toNat = 2 * b.toNat % 256 := by
  rw [BitVec.toNat_shiftLeft, Nat.shiftLeft_eq, Nat.mul_comm]

/-- A shifted flag is 0 or 2: it never wraps. -/
theorem toNat_shiftFlag_shiftLeft_one (b : Byte) : (shiftFlag b <<< 1).toNat = 2 * (b.toNat / 128) := by
  have := b.isLt
  rw [toNat_shiftLeft_one, toNat_shiftFlag]
  omega

section
variable (s : State) (x y : RegIdx)

theorem shlWith_getV_of_ne {x z : RegIdx} (o : ShlOrder) (hx : z ≠ x) (hF : z ≠ vF) :
    (shlWith o x y s).getV z = s.getV z := by
  cases o with
  | flagFirst => exact (State.getV_setV_of_ne _ _ hx).trans (State.getV_setV_of_ne _ _ hF)
  | resultFirst => exact (State.getV_setV_of_ne _ _ hF).trans (State.getV_setV_of_ne _ _ hx)

theorem toNat_shlWith_flagFirst_getV_dest : ((shlWith .flagFirst x y s).getV x).toNat =
    if x = vF then 2 * ((s.getV y).toNat / 128) else 2 * (s.getV x).toNat % 256 := by
  rw [shlWith, State.getV_setV_same, State.getV_setV]
  split
  · exact toNat_shiftFlag_shiftLeft_one _
  · exact toNat_shiftLeft_one _

theorem toNat_shlWith_flagFirst_getV_vF {x : RegIdx} (hx : x ≠ vF) :
    ((shlWith .flagFirst x y s).getV vF).toNat = (s.getV y).toNat / 128 := by
  rw [shlWith, State.getV_setV_of_ne _ _ hx.symm, State.getV_setV_same, toNat_shiftFlag]

theorem toNat_shlWith_resultFirst_getV_vF : ((shlWith .resultFirst x y s).getV vF).toNat =
    (if y = x then 2 * (s.getV x).toNat % 256 else (s.getV y).toNat) / 128 := by
  rw [shlWith, State.getV_setV_same, State.getV_setV, toNat_shiftFlag, apply_ite BitVec.toNat, toNat_shiftLeft_one]

theorem toNat_shlWith_resultFirst_getV_dest {x : RegIdx} (hx : x ≠ vF) :
    ((shlWith .resultFirst x y s).getV x).toNat = 2 * (s.getV x).toNat % 256 := by
  rw [shlWith, State.getV_setV_of_ne _ _ hx, State.getV_setV_same, toNat_shiftLeft_one]

end

/-- Settles O46: each register after the shift, from the advanced state that `exec` shifts and from any state. -/
theorem shlShifts : Obligations.ShlShifts :=
  ⟨fun s x y => ⟨shlWith .flagFirst x y s.advance, rfl, toNat_shlWith_flagFirst_getV_dest s.advance x y,
      toNat_shlWith_flagFirst_getV_vF s.advance y, rfl, fun _ => shlWith_getV_of_ne s.advance y .flagFirst,
      rfl, ⟨rfl, rfl⟩, ⟨fun _ _ => rfl, rfl⟩, fun _ => rfl, rfl, rfl⟩,
    fun s x y => ⟨toNat_shlWith_resultFirst_getV_vF s x y, toNat_shlWith_resultFirst_getV_dest s y,
      fun _ => shlWith_getV_of_ne s y .resultFirst⟩⟩

end Sys2Proof.Machine
end

section
/-! PROOF. The index register and block transfer (spec/43_index_memory.md R190 to R196): O49 to O55. -/

namespace Sys2Proof.Machine

/-! A write of I after the advance, whatever the word (R190 to R193). -/

theorem onlyPcI_advance_setI (s : State) (w : Word) : OnlyPcI s (s.advance.setI w) :=
  ⟨fun _ => rfl, ⟨rfl, rfl⟩, ⟨fun _ _ => rfl, rfl⟩, fun _ => rfl, rfl, rfl⟩

/-- Settles O49: the word written is nnn, zero-extended. -/
theorem ldILoads : Obligations.LdILoads :=
  fun s nnn => ⟨_, rfl, toNat_zextAddr nnn, rfl, onlyPcI_advance_setI s _⟩

/-! `IAdd` (R196): the sum is written, or the instruction's word is in the fault. -/

section
variable {rule : OverflowRule} {i : Instr} {k : Nat} {s : State}

theorem indexAddWith_writes {n : Nat} (hsum : indexSum rule s.i k = some (BitVec.ofNat 16 n)) (hn : n < 0x10000) :
    ∃ t, indexAddWith rule i k s = .next t ∧ t.i.toNat = n ∧ t.pc = s.pc + 2 ∧ OnlyPcI s t :=
  ⟨s.advance.setI (BitVec.ofNat 16 n), by rw [indexAddWith, hsum], Nat.mod_eq_of_lt hn, rfl, onlyPcI_advance_setI s _⟩

theorem indexAddWith_of_le (h : s.i.toNat + k ≤ 0xFFFF) :
    ∃ t, indexAddWith rule i k s = .next t ∧ t.i.toNat = s.i.toNat + k ∧ t.pc = s.pc + 2 ∧ OnlyPcI s t :=
  indexAddWith_writes (indexSum_of_le h) (Nat.lt_succ_of_le h)

theorem indexAddWith_fault_of_gt {w : Word} (hw : encode i = w) (h : 0xFFFF < s.i.toNat + k) :
    Raises (.indexOverflow s.pc w) s (indexAddWith .fault i k s) := by
  rw [indexAddWith, indexSum_of_gt h, hw]
  exact takeFault_raises _ s

end

/-- Settles O53: the sum by whether it fits a word, and above it by the overflow rule; with an addend of at most 1275 it wraps
once. -/
theorem indexAddition : Obligations.IndexAddition := by
  unfold Obligations.IndexAddition
  refine ⟨fun _ _ _ _ h => indexAddWith_of_le h, fun _ _ _ _ h => indexAddWith_fault_of_gt rfl h, fun i k s hk h => ?_⟩
  have := s.i.isLt
  exact indexAddWith_writes (indexSum_of_gt h) (by omega)

/-- The number of a word `Fxff` (R75). -/
theorem formXB_F_eq_ofNat (x : RegIdx) (ff : Byte) :
    formXB 0xF#4 x ff = BitVec.ofNat 16 (0xF000 + ff.toNat + 256 * x.toNat) := by
  apply BitVec.eq_of_toNat_eq
  have := x.isLt; have := ff.isLt
  rw [toNat_formXB, BitVec.toNat_ofNat, BitVec.toNat_ofNat]
  omega

/-- Settles O50: `IAdd` of the literal x, and of V[x]. -/
theorem addILitAdds : Obligations.AddILitAdds :=
  ⟨fun _ _ h => indexAddWith_of_le h, fun _ x h => indexAddWith_fault_of_gt (formXB_F_eq_ofNat x 0x15#8) h,
    fun _ _ h => indexAddWith_of_le h, fun _ x h => indexAddWith_fault_of_gt (formXB_F_eq_ofNat x 0x15#8) h⟩

/-- Settles O51: `IAdd` of V[x]. -/
theorem addIRegAdds : Obligations.AddIRegAdds :=
  ⟨fun _ _ h => indexAddWith_of_le h, fun _ x h => indexAddWith_fault_of_gt (formXB_F_eq_ofNat x 0x1E#8) h⟩

theorem glyphOffset_eq (b : Byte) : glyphOffset b = 5 * b.toNat := Nat.mul_comm b.toNat 5

/-- Settles O52: `IAdd` of the glyph offset. -/
theorem ldFAddsGlyphOffset : Obligations.LdFAddsGlyphOffset := by
  unfold Obligations.LdFAddsGlyphOffset
  simp only [← glyphOffset_eq]
  exact ⟨fun _ _ h => indexAddWith_of_le h, fun _ x h => indexAddWith_fault_of_gt (formXB_F_eq_ofNat x 0x29#8) h⟩

/-! Block transfer (R194, R195): by the range check, the transfer or the fault. -/

section
variable {s : State} {x : RegIdx}

theorem exec_store_of_inRange (h : x.toNat = 0 ∨ s.i.toNat + x.toNat ≤ memSize) :
    exec (.store x) s = .next { s.advance with mem := storeRegs s.v s.i.toNat x.toNat s.mem } := by
  simp only [exec, execStore, literalX, firstOutOfRange_eq_none.2 h]

theorem exec_store_of_outOfRange (h0 : x.toNat ≠ 0) (h : memSize < s.i.toNat + x.toNat) :
    exec (.store x) s = takeFault (.memWriteOutOfRange s.pc (max s.i.toNat memSize)) s := by
  simp only [exec, execStore, literalX, firstOutOfRange_eq_max h0 h]

theorem exec_load_of_inRange (h : x.toNat = 0 ∨ s.i.toNat + x.toNat ≤ memSize) :
    exec (.load x) s = .next { s.advance with v := loadRegs s.mem s.i.toNat x.toNat s.v } := by
  simp only [exec, execLoad, literalX, firstOutOfRange_eq_none.2 h]

theorem exec_load_of_outOfRange (h0 : x.toNat ≠ 0) (h : memSize < s.i.toNat + x.toNat) :
    exec (.load x) s = takeFault (.memReadOutOfRange s.pc (max s.i.toNat memSize)) s := by
  simp only [exec, execLoad, literalX, firstOutOfRange_eq_max h0 h]

end

/-! What a block transfer leaves in each byte or register of the block, and around it. -/

section
variable {m : Memory} {v : Vector Byte numV} {base count : Nat} {k : RegIdx}

/-- A stored byte reads back as its register. -/
theorem read_storeRegs_of_lt (hm : Memory.wf m) (hfit : base + count ≤ memSize) (hcount : count ≤ 15) (hk : k.toNat < count) :
    (storeRegs v base count m).read (base + k.toNat) = readReg v k := by
  obtain ⟨-, hread⟩ := storeRegs_spec v base hm count hfit hcount
  rw [hread, if_pos ⟨Nat.le_add_right _ _, Nat.add_lt_add_left hk base⟩, Nat.add_sub_cancel_left, BitVec.ofNat_toNat,
    BitVec.setWidth_eq]

theorem readReg_loadRegs_of_lt (hcount : count ≤ 15) (hk : k.toNat < count) :
    readReg (loadRegs m base count v) k = m.read (base + k.toNat) := by
  rw [readReg_loadRegs m base v k count hcount, if_pos hk]

theorem readReg_loadRegs_of_le (hcount : count ≤ 15) (hk : count ≤ k.toNat) :
    readReg (loadRegs m base count v) k = readReg v k := by
  rw [readReg_loadRegs m base v k count hcount, if_neg (Nat.not_lt.2 hk)]

end

/-- Settles O54: in range, memory after the store, inside its block and outside; else the fault, at the lowest address out of
range. -/
theorem storeWritesBlock : Obligations.StoreWritesBlock := by
  unfold Obligations.StoreWritesBlock
  refine ⟨fun s x h => ?_, fun s x h0 h => exec_store_of_outOfRange h0 h ▸ takeFault_raises _ s⟩
  have hcount : x.toNat ≤ 15 := Nat.le_of_lt_succ x.isLt
  refine ⟨_, exec_store_of_inRange h, fun hm k hk => ?_, fun a ha => ?_, rfl, fun _ => rfl, rfl, ⟨rfl, rfl⟩,
    ⟨fun _ _ => rfl, rfl⟩, rfl, rfl⟩
  · have hfit : s.i.toNat + x.toNat ≤ memSize := h.resolve_left (Nat.ne_zero_of_lt hk)
    exact read_storeRegs_of_lt hm hfit hcount hk
  · exact storeRegs_outside s.v s.i.toNat s.mem x.toNat (by omega)

/-- Settles O55: in range, each register after the load, below the count and from it on; else the fault, at the lowest address
out of range. -/
theorem loadReadsBlock : Obligations.LoadReadsBlock := by
  unfold Obligations.LoadReadsBlock
  refine ⟨fun s x h => ?_, fun s x h0 h => exec_load_of_outOfRange h0 h ▸ takeFault_raises _ s⟩
  have hcount : x.toNat ≤ 15 := Nat.le_of_lt_succ x.isLt
  exact ⟨_, exec_load_of_inRange h, fun _ => readReg_loadRegs_of_lt hcount, fun _ => readReg_loadRegs_of_le hcount, rfl, rfl,
    ⟨rfl, rfl⟩, ⟨fun _ _ => rfl, rfl⟩, fun _ => rfl, rfl, rfl⟩

end Sys2Proof.Machine
end

section
/-! PROOF. The faults that a step raises, and what `step()` returns (spec/60_exceptions.md R221 to R230, R241): O11 to O13. -/

namespace Sys2Proof.Machine

/-! What `step()` returns to the host (R241). -/

section
variable {s t : State}

/-- A step of a running block always answers a next state (R234). -/
theorem step_answers_next (hs : s.fault = none) : ∃ t, step s = .next t := by
  rw [step_of_running hs]
  rcases cycle_cases s with ⟨-, h⟩ | ⟨-, -, h⟩ | ⟨-, i, -, h⟩
  · exact ⟨_, h⟩
  · exact ⟨_, h⟩
  · exact h ▸ exec_answers_next i s

theorem stepTransaction_of_next_running (h : step s = .next t) (ht : t.fault = none) :
    stepTransaction s = (t, .executed) := by
  simp only [stepTransaction, h, ht]

end

/-- Settles O13: a Faulted block returns its latched fault, and a running one answers a next state, whose latch tells which of
the two results it returns. -/
theorem stepTransactionResult : Obligations.StepTransactionResult := by
  unfold Obligations.StepTransactionResult
  refine ⟨fun s t _ h => ⟨stepTransaction_of_next_running h, fun _ => stepTransaction_of_next_faulted h⟩, fun s => ?_⟩
  cases hs : s.fault with
  | some f => exact .inr ⟨f, congrArg Prod.snd (stepTransaction_of_fault hs)⟩
  | none =>
    obtain ⟨t, h⟩ := step_answers_next hs
    cases ht : t.fault with
    | none => exact .inl (congrArg Prod.snd (stepTransaction_of_next_running h ht))
    | some f => exact .inr ⟨f, congrArg Prod.snd (stepTransaction_of_next_faulted h ht)⟩

/-! The overflow checks under the parameters' default (R165, R166, R196): there is no result exactly when it does not fit. -/

theorem aluSum_fault_eq_none_iff {a b : Byte} : aluSum .fault a b = none ↔ 255 < a.toNat + b.toNat := by
  by_cases h : a.toNat + b.toNat ≤ 255
  · simp [aluSum_of_le h, h]
  · simp [aluSum_of_gt (Nat.not_le.1 h), Nat.not_le.1 h]

theorem aluDiff_fault_eq_none_iff {a b : Byte} : aluDiff .fault a b = none ↔ a.toNat < b.toNat := by
  by_cases h : b.toNat ≤ a.toNat
  · simp [aluDiff_of_le h, h]
  · simp [aluDiff_of_lt (Nat.not_le.1 h), Nat.not_le.1 h]

theorem indexSum_fault_eq_none_iff {w : Word} {k : Nat} : indexSum .fault w k = none ↔ 0xFFFF < w.toNat + k := by
  by_cases h : w.toNat + k ≤ 0xFFFF
  · simp [indexSum_of_le h, h]
  · simp [indexSum_of_gt (Nat.not_le.1 h), Nat.not_le.1 h]

/-! The table of the instructions' own faults. -/

/-- The fault of an instruction's one check of its own (R230), by its operands: the operands that fail the check and the info
recorded (R221, R222, R225, R226; spec/42_alu.md R165, R166; spec/43_index_memory.md R196). -/
def ownFault (s : State) : Instr → Option Fault
  | .drw _ _ n =>
    if n.toNat ≠ 0 ∧ memSize < s.i.toNat + n.toNat then some (.memReadOutOfRange s.pc (max s.i.toNat memSize)) else none
  | .load x =>
    if x.toNat ≠ 0 ∧ memSize < s.i.toNat + x.toNat then some (.memReadOutOfRange s.pc (max s.i.toNat memSize)) else none
  | .store x =>
    if x.toNat ≠ 0 ∧ memSize < s.i.toNat + x.toNat then some (.memWriteOutOfRange s.pc (max s.i.toNat memSize)) else none
  | .call _ => if stackMaxDepth ≤ s.sp.val then some (.stackOverflow s.pc) else none
  | .ret => if s.sp.val = 0 then some (.stackUnderflow s.pc) else none
  | .addReg x y =>
    if 255 < (s.getV x).toNat + (s.getV y).toNat then some (.aluOverflow s.pc (encode (.addReg x y))) else none
  | .subReg x y => if (s.getV x).toNat < (s.getV y).toNat then some (.aluOverflow s.pc (encode (.subReg x y))) else none
  | .addILit x => if 0xFFFF < s.i.toNat + x.toNat then some (.indexOverflow s.pc (encode (.addILit x))) else none
  | .addIReg x => if 0xFFFF < s.i.toNat + (s.getV x).toNat then some (.indexOverflow s.pc (encode (.addIReg x))) else none
  | .ldF x => if 0xFFFF < s.i.toNat + 5 * (s.getV x).toNat then some (.indexOverflow s.pc (encode (.ldF x))) else none
  | .sys | .cls | .jp _ | .seImm _ _ | .sneImm _ _ | .seReg _ _ | .ldImm _ _ | .addImm _ _ | .ldReg _ _ => none
  | .andReg _ _ | .xorReg _ _ | .shl _ _ | .sneReg _ _ | .ldI _ | .jpV0 _ | .rnd _ _ => none

section
variable {s t : State} {i : Instr} {f : Fault}

/-- The latch after a check that raises `f` exactly under `c` and otherwise leaves the latch of a running block. -/
theorem latch_of_check {c : Prop} [Decidable c] {r : Result} (hs : s.fault = none) (h : r = .next t)
    (hraise : c → r = takeFault f s) (hrun : ¬ c → ∃ u, r = .next u ∧ u.fault = s.fault) :
    t.fault = if c then some f else none := by
  split
  · next hc => rw [takeFault_next ((hraise hc).symm.trans h)]
  · next hc =>
    obtain ⟨u, hr, hu⟩ := hrun hc
    cases hr.symm.trans h
    exact hu.trans hs

theorem inRange_of_not_outOfRange {base count : Nat} (h : ¬ (count ≠ 0 ∧ memSize < base + count)) :
    count = 0 ∨ base + count ≤ memSize := by
  omega

theorem finishAlu_latch {c : Prop} [Decidable c] {x : RegIdx} {r : Option Byte} (hs : s.fault = none)
    (h : finishAlu i x r s = .next t) (hc : r = none ↔ c) :
    t.fault = if c then some (.aluOverflow s.pc (encode i)) else none := by
  rcases finishAlu_cases h with ⟨hr, rfl⟩ | ⟨b, rfl, rfl⟩
  · rw [if_pos (hc.1 hr)]
  · rw [if_neg (mt hc.2 nofun)]; exact hs

theorem indexAddWith_latch {k : Nat} (hs : s.fault = none) (h : indexAddWith .fault i k s = .next t) :
    t.fault = if 0xFFFF < s.i.toNat + k then some (.indexOverflow s.pc (encode i)) else none := by
  rcases indexAddWith_cases h with ⟨hsum, rfl⟩ | ⟨w, hsum, rfl⟩
  · rw [if_pos (indexSum_fault_eq_none_iff.1 hsum)]
  · rw [if_neg (mt indexSum_fault_eq_none_iff.2 (by simp [hsum]))]; exact hs

theorem Fault.code_ne_zero (f : Fault) : f.code ≠ 0 := by
  cases f <;> exact nofun

/-- An instruction with no check of its own leaves the latch. -/
theorem fault_eq_of_no_check (hcode : ownFaultCode i = 0) (h : exec i s = .next t) : t.fault = s.fault := by
  obtain ⟨f, hf, -, -⟩ | hsame := (exec_next_cases h).fault_cases
  · exact absurd (hf.trans hcode) f.code_ne_zero
  · exact hsame

/-- What an instruction latches in a running block is its entry of the table. -/
theorem exec_fault_eq_ownFault (hs : s.fault = none) (h : exec i s = .next t) : t.fault = ownFault s i := by
  cases i
  case drw x y n =>
    exact latch_of_check hs h (fun ⟨h0, hi⟩ => exec_drw_of_outOfRange x y h0 hi)
      fun hc => ⟨_, exec_drw_of_inRange x y (inRange_of_not_outOfRange hc), rfl⟩
  case load x =>
    exact latch_of_check hs h (fun ⟨h0, hi⟩ => exec_load_of_outOfRange h0 hi)
      fun hc => ⟨_, exec_load_of_inRange (inRange_of_not_outOfRange hc), rfl⟩
  case store x =>
    exact latch_of_check hs h (fun ⟨h0, hi⟩ => exec_store_of_outOfRange h0 hi)
      fun hc => ⟨_, exec_store_of_inRange (inRange_of_not_outOfRange hc), rfl⟩
  case call nnn =>
    exact latch_of_check hs h (callWith_of_full nnn) fun hc => ⟨_, callWith_of_lt nnn (Nat.not_le.1 hc), rfl⟩
  case ret => exact latch_of_check hs h exec_ret_of_empty fun hc => ⟨_, exec_ret_of_ne_zero hc, rfl⟩
  case addReg x y => exact finishAlu_latch hs h aluSum_fault_eq_none_iff
  case subReg x y => exact finishAlu_latch hs h aluDiff_fault_eq_none_iff
  case addILit x => exact indexAddWith_latch hs h
  case addIReg x => exact indexAddWith_latch hs h
  case ldF x => rw [ownFault, ← glyphOffset_eq]; exact indexAddWith_latch hs h
  all_goals exact (fault_eq_of_no_check rfl h).trans hs

end

/-! The table read by the fault: the entries with that cause give its operands, and no other entry has it. -/

section
variable (s : State) (i : Instr) (p : Word)

theorem ownFault_eq_memReadOutOfRange_iff (a : Nat) : ownFault s i = some (.memReadOutOfRange p a) ↔
    p = s.pc ∧ a = max s.i.toNat memSize ∧
      ((∃ x y n, i = .drw x y n ∧ n.toNat ≠ 0 ∧ memSize < s.i.toNat + n.toNat) ∨
       (∃ x, i = .load x ∧ x.toNat ≠ 0 ∧ memSize < s.i.toNat + x.toNat)) := by
  cases i
  case drw => simp [ownFault, and_assoc, and_comm, and_left_comm, eq_comm]
  case load => simp [ownFault, and_assoc, and_comm, and_left_comm, eq_comm]
  all_goals simp [ownFault]

theorem ownFault_eq_memWriteOutOfRange_iff (a : Nat) : ownFault s i = some (.memWriteOutOfRange p a) ↔
    p = s.pc ∧ a = max s.i.toNat memSize ∧ ∃ x, i = .store x ∧ x.toNat ≠ 0 ∧ memSize < s.i.toNat + x.toNat := by
  cases i
  case store => simp [ownFault, and_assoc, and_comm, and_left_comm, eq_comm]
  all_goals simp [ownFault]

theorem ownFault_eq_stackOverflow_iff : ownFault s i = some (.stackOverflow p) ↔
    p = s.pc ∧ ∃ nnn, i = .call nnn ∧ stackMaxDepth ≤ s.sp.val := by
  cases i
  case call => simp [ownFault, and_comm, eq_comm]
  all_goals simp [ownFault]

theorem ownFault_eq_stackUnderflow_iff : ownFault s i = some (.stackUnderflow p) ↔
    p = s.pc ∧ i = .ret ∧ s.sp.val = 0 := by
  cases i
  case ret => simp [ownFault, and_comm, eq_comm]
  all_goals simp [ownFault]

theorem ownFault_eq_aluOverflow_iff (op : Word) : ownFault s i = some (.aluOverflow p op) ↔ p = s.pc ∧ op = encode i ∧
    ((∃ x y, i = .addReg x y ∧ 255 < (s.getV x).toNat + (s.getV y).toNat) ∨
     (∃ x y, i = .subReg x y ∧ (s.getV x).toNat < (s.getV y).toNat)) := by
  cases i
  case addReg => simp [ownFault, and_assoc, and_comm, eq_comm]
  case subReg => simp [ownFault, and_assoc, and_comm, eq_comm]
  all_goals simp [ownFault]

theorem ownFault_eq_indexOverflow_iff (op : Word) : ownFault s i = some (.indexOverflow p op) ↔ p = s.pc ∧ op = encode i ∧
    ((∃ x, i = .addILit x ∧ 0xFFFF < s.i.toNat + x.toNat) ∨
     (∃ x, i = .addIReg x ∧ 0xFFFF < s.i.toNat + (s.getV x).toNat) ∨
     (∃ x, i = .ldF x ∧ 0xFFFF < s.i.toNat + 5 * (s.getV x).toNat)) := by
  cases i
  case addILit => simp [ownFault, and_comm, and_left_comm, eq_comm]
  case addIReg => simp [ownFault, and_assoc, and_comm, eq_comm]
  case ldF => simp [ownFault, and_assoc, and_comm, eq_comm]
  all_goals simp [ownFault]

end

/-- An instruction that ends a running block's step with a fault latched has changed nothing else. -/
theorem onlyLatch_of_exec_faulted {i : Instr} {s t : State} (hs : s.fault = none) (h : exec i s = .next t)
    (ht : t.fault ≠ none) : OnlyLatch s t := by
  obtain ⟨f, -, -, rfl⟩ | hsame := (exec_next_cases h).fault_cases
  · exact onlyLatch_setFault f s
  · exact absurd (hsame.trans hs) ht

/-- Settles O12: the latch is the table's entry, which is read once for each fault. -/
theorem faultTable : Obligations.FaultTable := by
  unfold Obligations.FaultTable
  intro i s t hs h
  refine ⟨?_, ?_, ?_, ?_, ?_, ?_, onlyLatch_of_exec_faulted hs h⟩
  all_goals rw [exec_fault_eq_ownFault hs h]
  · exact ownFault_eq_memReadOutOfRange_iff s i
  · exact ownFault_eq_memWriteOutOfRange_iff s i
  · exact ownFault_eq_stackOverflow_iff s i
  · exact ownFault_eq_stackUnderflow_iff s i
  · exact ownFault_eq_aluOverflow_iff s i
  · exact ownFault_eq_indexOverflow_iff s i

/-! The order of the checks (R230). -/

section
variable {s t : State} {i : Instr} {f : Fault}

theorem step_of_fetch_outOfRange (hs : s.fault = none) (hpc : memSize ≤ s.pc.toNat + 1) :
    step s = takeFault (.fetchOutOfRange s.pc) s := by
  rcases cycle_cases s with ⟨-, h⟩ | ⟨hlt, -⟩ | ⟨hlt, -⟩
  · exact (step_of_running hs).trans h
  · exact absurd hpc (Nat.not_le.2 hlt)
  · exact absurd hpc (Nat.not_le.2 hlt)

theorem step_of_unrecognized (hs : s.fault = none) (hpc : s.pc.toNat + 1 < memSize)
    (hd : decodeWord (wordAt s.mem s.pc.toNat) = none) :
    step s = takeFault (.unrecognizedOpcode s.pc (wordAt s.mem s.pc.toNat)) s := by
  rcases cycle_cases s with ⟨hge, -⟩ | ⟨-, -, h⟩ | ⟨-, i, hi, -⟩
  · exact absurd hge (Nat.not_le.2 hpc)
  · exact (step_of_running hs).trans h
  · cases hd.symm.trans hi

/-- An instruction's fault has the instruction's one cause, at its own pc. -/
theorem exec_faulted_code_pc (hs : s.fault = none) (h : exec i s = .next t) (ht : t.fault = some f) :
    f.code = ownFaultCode i ∧ f.pc = s.pc := by
  obtain ⟨g, hcode, hpc, rfl⟩ | hsame := (exec_next_cases h).fault_cases
  · cases ht; exact ⟨hcode, hpc⟩
  · cases ht.symm.trans (hsame.trans hs)

/-- An address recorded in an instruction's fault is the lowest one out of range (R221, R222). -/
theorem ownFault_addr (hf : ownFault s i = some f) {p : Word} {a : Nat}
    (hmem : f = .memReadOutOfRange p a ∨ f = .memWriteOutOfRange p a) : a = max s.i.toNat memSize := by
  rcases hmem with rfl | rfl
  · obtain ⟨-, ha, -⟩ := (ownFault_eq_memReadOutOfRange_iff s i p a).1 hf
    exact ha
  · obtain ⟨-, ha, -⟩ := (ownFault_eq_memWriteOutOfRange_iff s i p a).1 hf
    exact ha

end

/-- Settles O11: the cycle's first failing check is the one reported; an instruction's own check has one cause and records the
lowest address out of range. -/
theorem faultPriority : Obligations.FaultPriority := by
  unfold Obligations.FaultPriority
  refine ⟨fun s hs hpc => ?_, fun s hs hpc hd => ?_, fun i s t f hs h ht => ?_⟩
  · exact step_of_fetch_outOfRange hs hpc ▸ takeFault_raises _ s
  · exact step_of_unrecognized hs hpc hd ▸ takeFault_raises _ s
  · obtain ⟨hcode, hpc⟩ := exec_faulted_code_pc hs h ht
    exact ⟨hcode, hpc, fun _ _ => ownFault_addr ((exec_fault_eq_ownFault hs h).symm.trans ht)⟩

end Sys2Proof.Machine
end

section
/-! PROOF. Construction and the first fetch (spec/70_reset_and_hazards.md R250 to R253): O17 and O18. -/

namespace Sys2Proof.Machine

/-! A loaded image, read back (R245, R251). -/

/-- Loading an image leaves every address below its base as it was, in any memory. -/
theorem read_loadImage_of_lt (img : List Byte) {a : Nat} : ∀ (base : Nat) (m : Memory), a < base →
    (loadImage base img m).read a = m.read a := by
  induction img with
  | nil => intro _ _ _; rfl
  | cons b bs ih =>
    intro base m h
    exact (ih (base + 1) _ (Nat.lt_succ_of_lt h)).trans (Memory.read_write_of_ne m b h.ne)

/-- From its base on, a loaded image reads as its bytes, and past them as what memory held. -/
theorem read_loadImage (img : List Byte) : ∀ (base : Nat) (m : Memory) (k : Nat), Memory.wf m →
    base + img.length ≤ memSize → (loadImage base img m).read (base + k) = img.getD k (m.read (base + k)) := by
  induction img with
  | nil => intro _ _ _ _ _; rfl
  | cons b bs ih =>
    intro base m k hm hfit
    rw [List.length_cons] at hfit
    cases k with
    | zero => exact (read_loadImage_of_lt bs (base + 1) _ (Nat.lt_succ_self base)).trans (Memory.read_write_same hm base b)
    | succ k =>
      have hrest := ih (base + 1) (m.write base b) k (Memory.wf_write hm (by omega) b) (by omega)
      rw [Memory.read_write_of_ne m b (by omega), Nat.add_right_comm base 1 k] at hrest
      exact hrest

section
variable {p : ResetParams} {img : List Byte} {t : State}

/-- Memory after construction: the image from LOAD_ADDR on, and zero past it. -/
theorem read_constructed (hfit : img.length ≤ memSize - loadAddr) (k : Nat) :
    (loadImage loadAddr img []).read (loadAddr + k) = img.getD k 0x00#8 :=
  read_loadImage img loadAddr [] k Memory.wf_nil (by simp only [memSize, loadAddr] at *; omega)

/-- An image that does not fit is refused (R252). -/
theorem construct_of_gt (h : memSize - loadAddr < img.length) : construct p img = .refused .imageTooLong :=
  if_neg fun hfit => Nat.not_le.2 h (of_decide_eq_true hfit)

/-- The one block that a construction gives: the blank one with the image loaded, when the image fits (R251, R252). -/
theorem construct_eq_next_iff : construct p img = .next t ↔
    img.length ≤ memSize - loadAddr ∧ t = { State.blank p with mem := loadImage loadAddr img [] } := by
  rcases Nat.lt_or_ge (memSize - loadAddr) img.length with h | h
  · simp [construct_of_gt h, h]
  · have hnext : construct p img = .next { State.blank p with mem := loadImage loadAddr img [] } :=
      if_pos (decide_eq_true h)
    simp [hnext, h, eq_comm]

end

/-- Settles O17: memory by `read_constructed` at and above 0x200 and by `read_loadImage_of_lt` below it, everything else as in
the blank block. -/
theorem constructResets : Obligations.ConstructResets := by
  unfold Obligations.ConstructResets
  refine ⟨fun p img h => construct_of_gt h, fun p img hfit => ⟨_, construct_eq_next_iff.2 ⟨hfit, rfl⟩, ?_, ?_,
    rfl, fun _ => rfl, rfl, rfl, pixel_blank p, rfl, rfl⟩⟩
  · intro k hk
    exact (read_constructed hfit k).trans (List.getD_eq_getElem img _ hk)
  · rintro a (hlow | hhigh)
    · exact read_loadImage_of_lt img loadAddr [] hlow
    · obtain ⟨k, rfl⟩ := Nat.exists_eq_add_of_le (Nat.le_of_add_right_le hhigh)
      exact (read_constructed hfit k).trans (List.getD_eq_default img _ (Nat.le_of_add_le_add_left hhigh))

/-- Settles O18: the two bytes fetched are the constructed memory at offsets 0 and 1 of LOAD_ADDR. -/
theorem firstFetch : Obligations.FirstFetch := by
  unfold Obligations.FirstFetch
  intro p img t h
  obtain ⟨hfit, rfl⟩ := construct_eq_next_iff.1 h
  exact ⟨rfl, congrArg₂ (· ++ ·) (read_constructed hfit 0) (read_constructed hfit 1)⟩

end Sys2Proof.Machine
end

section
/-! PROOF. The stopped condition (spec/70_reset_and_hazards.md R259): O30. -/

namespace Sys2Proof.Machine

/-- A machine whose step answers the state it was given stays in that state. -/
theorem run_of_step_self {M : Host.Core} {s : M.State} (h : M.step s = .next s) : ∀ k, M.run k s = .next s := by
  intro k
  induction k with
  | zero => rfl
  | succ k ih => simp only [Host.Core.run, h, ih]

/-- The family 1 is the jump to the word's low 12 bits (R80). -/
theorem decodeWord_of_nibble_one {w : Word} (h : w.toNat / 4096 = 1) : decodeWord w = some (.jp (fieldNNN w)) := by
  simp only [decodeWord, toNat_fieldOp, h]

section
variable {s : State}

/-- A running block executes the instruction that the word at pc decodes to (R70). -/
theorem step_of_decoded {i : Instr} (hs : s.fault = none) (hpc : s.pc.toNat + 1 < memSize)
    (hd : decodeWord (wordAt s.mem s.pc.toNat) = some i) : step s = exec i s := by
  rcases cycle_cases s with ⟨hge, -⟩ | ⟨-, hnone, -⟩ | ⟨-, j, hj, h⟩
  · exact absurd hge (Nat.not_le.2 hpc)
  · cases hnone.symm.trans hd
  · cases hj.symm.trans hd
    exact (step_of_running hs).trans h

/-- A jump to its own address changes nothing: it overwrites the advanced pc with the old one (R102). -/
theorem exec_jp_self {nnn : Addr12} (h : nnn.toNat = s.pc.toNat) : exec (.jp nnn) s = .next s := by
  have hpc : zextAddr nnn = s.pc := BitVec.eq_of_toNat_eq ((toNat_zextAddr nnn).trans h)
  change Host.Outcome.next (s.advance.setPc (zextAddr nnn)) = .next s
  rw [hpc]
  rfl

/-- The word at pc of a stopped program is the jump to pc. -/
theorem step_of_stoppedAt {a : Nat} (h : StoppedAt a s) : step s = .next s := by
  obtain ⟨hs, rfl, hle, hw⟩ := h
  have hfetch : s.pc.toNat + 1 < memSize := by simp only [memSize]; omega
  have hd := decodeWord_of_nibble_one (w := wordAt s.mem s.pc.toNat) (by omega)
  have htarget : (fieldNNN (wordAt s.mem s.pc.toNat)).toNat = s.pc.toNat := by rw [toNat_fieldNNN]; omega
  exact (step_of_decoded hs hfetch hd).trans (exec_jp_self htarget)

end

/-- Settles O30: one step changes nothing, and so by induction no number of steps does. -/
theorem stoppedIsFixed : Obligations.StoppedIsFixed :=
  fun _ _ h => ⟨step_of_stoppedAt h, run_of_step_self (M := core) (step_of_stoppedAt h)⟩

end Sys2Proof.Machine
end

section
/-! PROOF. The decoder and the encoder undo each other, and a step runs what it fetches (spec/30_encoding.md R70 to R86;
spec/20_memory.md R51): O1, O2, O4 and O6 to O9. -/

namespace Sys2Proof

/-- The word of an instruction decodes to it: the first nibble gives its family, the family's literal gives its constructor, and
the fields are its operands (R76, R79). -/
theorem decodeWord_encode (i : Instr) : decodeWord (encode i) = some i := by
  cases i
  case sys | cls | ret => rfl
  case seReg | sneReg => simp [encode, decodeWord, decodeLow0]
  case ldReg | andReg | xorReg | addReg | subReg | shl => simp [encode, decodeWord, decodeFamily8]
  case addILit | addIReg | ldF | store | load => simp [encode, decodeWord, decodeFamilyF]
  all_goals simp [encode, decodeWord]

/-- Settles O1: the stored bytes are put together to the instruction's word, which decodes to the instruction. -/
theorem decodeOfEncode : Obligations.DecodeOfEncode := by
  unfold Obligations.DecodeOfEncode
  intro i rest
  rw [decode_wordBytes, decodeWord_encode]

/-- Settles O2: each family's literals and fields are all the bits of its words. -/
theorem encodeOfDecode : Obligations.EncodeOfDecode :=
  fun _ _ => encode_of_decodeWord

/-- Settles O4: two rows differ on the bits that both compare. -/
theorem atMostOneRowMatches : Obligations.AtMostOneRowMatches :=
  fun _ _ _ => row_eq_of_matches

/-- Settles O6: each of the twelve words is the encoding of its instruction, and the other two are in the list of the
unrecognised words. -/
theorem patternWordsDecode : Obligations.PatternWordsDecode :=
  ⟨decodeWord_encode .cls, decodeWord_encode .ret, decodeWord_encode .sys, decodeWord_encode (.jp 0x234#12),
    decodeWord_encode (.call 0x210#12), decodeWord_encode (.seImm 0xA#4 0x05#8), decodeWord_encode (.sneReg 0x1#4 0x2#4),
    decodeWord_encode (.ldImm 0xA#4 0x05#8), decodeWord_encode (.shl 0x1#4 0x2#4), decodeWord_encode (.drw 0x0#4 0x1#4 0xF#4),
    decodeWord_encode (.addILit 0x3#4), decodeWord_encode (.load 0x2#4), (unrecognizedWords 0x8121#16).2 (by decide),
    (unrecognizedWords 0xE19E#16).2 (by decide)⟩

end Sys2Proof

namespace Sys2Proof.Machine

/-- Settles O7: the decode and fetch faults are ruled out, so the cycle is the decoded instruction. -/
theorem stepRunsDecoded : Obligations.StepRunsDecoded :=
  fun _ _ => step_of_decoded

/-! A word placed at pc is the word fetched there (R51). -/

section
variable {s : State} {w : Word}

/-- Where both bytes exist, placing a word is two writes. -/
theorem placeWord_mem (h : s.pc.toNat + 1 < memSize) :
    (placeWord s w).mem = (s.mem.write s.pc.toNat (highByte w)).write (s.pc.toNat + 1) (lowByte w) := by
  simp only [placeWord, placeByte, if_pos h, if_pos (Nat.lt_of_succ_lt h)]

theorem wordAt_placeWord (hm : Memory.wf s.mem) (h : s.pc.toNat + 1 < memSize) :
    wordAt (placeWord s w).mem s.pc.toNat = w := by
  have hm' := Memory.wf_write hm (Nat.lt_of_succ_lt h) (highByte w)
  rw [placeWord_mem h, wordAt, Memory.read_write_same hm', Memory.read_write_of_ne _ _ (Nat.ne_of_lt (Nat.lt_succ_self _)),
    Memory.read_write_same hm, highByte_append_lowByte]

end

/-- Settles O8: the word at pc of the state with the word placed is that word, and pc and the latch are as they were. -/
theorem placedWordRuns : Obligations.PlacedWordRuns := by
  unfold Obligations.PlacedWordRuns
  intro s w i hs hm hpc hd
  rw [State.withFetchWord, tableWord_toNat]
  exact step_of_decoded hs hpc ((wordAt_placeWord hm hpc).symm ▸ hd)

/-- Settles O9: a running block answers a next state, and a Faulted one its latched fault. -/
theorem runningBlockSteps : Obligations.RunningBlockSteps := by
  unfold Obligations.RunningBlockSteps
  refine ⟨fun s => step_answers_next, fun s r h => ?_⟩
  cases hs : s.fault with
  | some f => cases (step_of_fault hs).symm.trans h
  | none =>
    obtain ⟨t, ht⟩ := step_answers_next hs
    cases ht.symm.trans h

end Sys2Proof.Machine
end

section
/-! PROOF. Which instructions write which state: O28, O29, O37, O48, O56 and O57. One lemma per piece of state, by the cases of
`ExecNext`: a writer is excluded by the hypothesis, and every other effect leaves that piece as it was. -/

namespace Sys2Proof.Machine

section
variable {i : Instr} {s t : State}

/-- An instruction that does not write pc leaves it advanced, unless it faults (spec/30_encoding.md R73). -/
theorem ExecNext.pc_eq (h : ExecNext i s t) (hi : writesPc i = false) (ht : t.fault = none) : t.pc = s.pc + 2 := by
  cases h
  case fault => cases ht
  case ret | jp | call | seImm | sneImm | seReg | sneReg | jpV0 => cases hi
  case shl => rw [shlWith_eq]; rfl
  all_goals rfl

/-- An instruction pushes, pops, or leaves SP and the stack (spec/10_state.md R29). -/
theorem ExecNext.stack_cases (h : ExecNext i s t) :
    (∃ nnn, i = .call nnn ∧ s.sp.val < stackMaxDepth ∧ t = (s.advance.push s.advance.pc).setPc (zextAddr nnn)) ∨
    (i = .ret ∧ t = s.advance.drop.setPc s.top) ∨ SameStack s t := by
  cases h
  case call nnn hsp => exact .inl ⟨nnn, rfl, hsp, rfl⟩
  case ret => exact .inr (.inl ⟨rfl, rfl⟩)
  case shl => rw [shlWith_eq]; exact .inr (.inr ⟨rfl, rfl⟩)
  case seImm | sneImm | seReg | sneReg => exact .inr (.inr ⟨State.skipIf_sp _ _, State.skipIf_stack _ _⟩)
  all_goals exact .inr (.inr ⟨rfl, rfl⟩)

theorem ExecNext.fb_eq (h : ExecNext i s t) (hi : drawsPixels i = false) : t.fb = s.fb := by
  cases h
  case cls | drw => cases hi
  case shl => rw [shlWith_eq]; rfl
  case seImm | sneImm | seReg | sneReg => exact State.skipIf_fb _ _
  all_goals rfl

theorem ExecNext.i_eq (h : ExecNext i s t) (hi : writesI i = false) : t.i = s.i := by
  cases h
  case ldI | addILit | addIReg | ldF => cases hi
  case shl => rw [shlWith_eq]; rfl
  case seImm | sneImm | seReg | sneReg => exact State.skipIf_i _ _
  all_goals rfl

theorem ExecNext.mem_eq (h : ExecNext i s t) (hi : ∀ x, i ≠ .store x) : t.mem = s.mem := by
  cases h
  case store x _ => exact absurd rfl (hi x)
  case shl => rw [shlWith_eq]; rfl
  case seImm | sneImm | seReg | sneReg => exact State.skipIf_mem _ _
  all_goals rfl

/-- A register that R22 does not list for the instruction keeps its value: it is not the register written, or it lies at or above
the load's count. -/
theorem ExecNext.getV_eq (h : ExecNext i s t) {y : RegIdx} (hi : writesV i y = false) : t.getV y = s.getV y := by
  cases h
  case ldImm | addImm | rnd | ldReg | andReg | xorReg | addReg | subReg =>
    exact State.getV_setV_of_ne _ _ (ne_of_beq_false hi)
  case shl =>
    obtain ⟨hx, hF⟩ := Bool.or_eq_false_iff.1 hi
    exact shlWith_getV_of_ne s.advance _ _ (ne_of_beq_false hx) (ne_of_beq_false hF)
  case drw => exact sameVBut_finishDraw _ s.advance y (ne_of_beq_false hi)
  case load x _ =>
    exact readReg_loadRegs_of_le (Nat.le_of_lt_succ x.isLt) (Nat.not_lt.1 (of_decide_eq_false hi))
  case seImm | sneImm | seReg | sneReg => exact State.skipIf_getV _ _ _
  all_goals rfl

end

/-- Settles O28, by `ExecNext.pc_eq`. -/
theorem pcAdvances : Obligations.PcAdvances :=
  fun _ _ _ hi _ h ht => (exec_next_cases h).pc_eq hi ht

/-- Settles O29: the push is `2nnn`, and the pop is `00EE`. -/
theorem onlyCallAndRetTouchStack : Obligations.OnlyCallAndRetTouchStack := by
  unfold Obligations.OnlyCallAndRetTouchStack
  intro i s t hcall hret h
  obtain ⟨nnn, hi, -⟩ | ⟨hi, -⟩ | hsame := (exec_next_cases h).stack_cases
  · exact absurd hi (hcall nnn)
  · exact absurd hi hret
  · exact hsame

/-- Settles O37: the framebuffer is kept whole. -/
theorem onlyDrawsWritePixels : Obligations.OnlyDrawsWritePixels :=
  fun _ _ _ hi h c r => congrArg (Framebuffer.pixel · c r) ((exec_next_cases h).fb_eq hi)

/-- Settles O48: the frame of the registers, and `Fx65` writes only below its count, which is at most 15. -/
theorem writersOfV : Obligations.WritersOfV :=
  ⟨fun _ _ _ _ hi h => (exec_next_cases h).getV_eq hi,
    fun _ _ x h => (exec_next_cases h).getV_eq (decide_eq_false (Nat.not_lt.2 (Nat.le_of_lt_succ x.isLt)))⟩

/-- Settles O56, by `ExecNext.i_eq`. -/
theorem writersOfI : Obligations.WritersOfI :=
  fun _ _ _ hi h => (exec_next_cases h).i_eq hi

/-- Settles O57: memory is kept whole. -/
theorem onlyStoreWritesMemory : Obligations.OnlyStoreWritesMemory :=
  fun _ _ _ hi h a => congrArg (Memory.read · a) ((exec_next_cases h).mem_eq hi)

end Sys2Proof.Machine
end

section
/-! PROOF. The invariant of the block (spec/10_state.md R27, R28; spec/20_memory.md R53; spec/30_encoding.md R71): O14 to O16. -/

namespace Sys2Proof.Machine

section
variable {i : Instr} {s t : State}

/-- Latching a fault at the block's pc keeps the invariant. -/
theorem Inv.setFault {f : Fault} (h : Inv s) (hf : f.pc = s.pc) : Inv { s with fault := some f } where
  mem_wf := h.mem_wf
  pc_le := h.pc_le
  sp_lt := h.sp_lt
  ret_le := h.ret_le
  fault_pc := by rintro _ ⟨⟩; exact hf

/-- A store in range keeps memory canonical, and nothing else touches it. -/
theorem ExecNext.mem_wf (h : ExecNext i s t) (hm : Memory.wf s.mem) : Memory.wf t.mem := by
  by_cases hi : ∀ x, i ≠ .store x
  · rw [h.mem_eq hi]; exact hm
  · obtain ⟨x, rfl⟩ := not_forall_not.1 hi
    cases h
    case fault => exact hm
    case store hfit =>
      obtain h0 | hfit := hfit
      · rw [h0]; exact hm
      · obtain ⟨hwf, -⟩ := storeRegs_spec s.v s.i.toNat hm x.toNat hfit (Nat.le_of_lt_succ x.isLt)
        exact hwf

/-! The program counter (R27). Where the fetch succeeds, the advance and the skip do not wrap. -/

theorem toNat_pc_add_two (h : s.pc.toNat + 1 < memSize) : (s.pc + 2#16).toNat = s.pc.toNat + 2 := by
  simp only [memSize] at h
  rw [BitVec.toNat_add]
  exact Nat.mod_eq_of_lt (by change s.pc.toNat + 2 < 65536; omega)

theorem toNat_pc_advance_skipIf_le (h : s.pc.toNat + 1 < memSize) (c : Bool) :
    (s.advance.skipIf c).pc.toNat ≤ s.pc.toNat + 4 := by
  have h4 : (s.pc + 4).toNat ≤ s.pc.toNat + 4 := by
    rw [BitVec.toNat_add]
    exact Nat.mod_le _ _
  rw [advance_skipIf_eq, State.setPc_pc]
  split
  · exact h4
  · exact (toNat_pc_add_two h).le.trans (by omega)

/-- After an instruction that was fetched and did not fault, pc is a popped address, a target of at most 0xFFF + 0xFF, or at
most 4 past the instruction. -/
theorem ExecNext.toNat_pc_le (h : ExecNext i s t) (hpc : s.pc.toNat + 1 < memSize) (ht : t.fault = none)
    (htop : 0 < s.sp.val → s.top.toNat ≤ 0x1000) : t.pc.toNat ≤ 0x10FE := by
  simp only [memSize] at hpc
  by_cases hi : writesPc i = false
  · rw [h.pc_eq hi ht]
    exact (toNat_pc_add_two hpc).le.trans (by omega)
  cases h
  case fault => cases ht
  case ret hsp => exact (htop hsp).trans (by decide)
  case jp nnn | call nnn _ =>
    have := nnn.isLt
    rw [State.setPc_pc, toNat_zextAddr]
    omega
  case jpV0 nnn =>
    have := nnn.isLt
    have := (s.getV v0).isLt
    rw [State.setPc_pc, toNat_offsetTarget]
    omega
  case seImm | sneImm | seReg | sneReg => exact (toNat_pc_advance_skipIf_le hpc _).trans (by omega)
  all_goals exact absurd rfl hi

/-! The stack (R28): SP stays below 16, and what is pushed is the advanced pc. -/

theorem Inv.top_le (h : Inv s) (hsp : 0 < s.sp.val) : s.top.toNat ≤ 0x1000 :=
  h.ret_le (s.sp.val - 1) (by have := h.sp_lt; omega) (Nat.sub_lt hsp Nat.one_pos)

theorem advance_push_sp_val (hsp : s.sp.val < 16) (w : Word) : (s.advance.push w).sp.val = s.sp.val + 1 :=
  s.advance.push_sp_val w hsp

theorem ExecNext.sp_lt (h : ExecNext i s t) (hsp : s.sp.val < 16) : t.sp.val < 16 := by
  obtain ⟨nnn, -, hlt, rfl⟩ | ⟨-, rfl⟩ | ⟨hsame, -⟩ := h.stack_cases
  · rw [State.setPc_sp, advance_push_sp_val hsp]
    exact Nat.succ_lt_succ hlt
  · exact (Nat.sub_le _ _).trans_lt hsp
  · rw [hsame]; exact hsp

theorem ExecNext.ret_le (h : ExecNext i s t) (hs : Inv s) (hpc : s.pc.toNat + 1 < memSize) (k : Nat) (hk : k < 16)
    (hkt : k < t.sp.val) : (t.stack[k]'hk).toNat ≤ 0x1000 := by
  obtain ⟨nnn, -, -, rfl⟩ | ⟨-, rfl⟩ | ⟨hsp, hstack⟩ := h.stack_cases
  · rw [State.setPc_sp, advance_push_sp_val hs.sp_lt] at hkt
    simp only [State.setPc_stack, State.getElem_push_stack]
    split
    · exact (toNat_pc_add_two hpc).le.trans hpc
    · next hne => exact hs.ret_le k hk (Nat.lt_of_le_of_ne (Nat.le_of_lt_succ hkt) hne)
  · exact hs.ret_le k hk (hkt.trans_le (Nat.sub_le _ _))
  · simp only [hstack]
    exact hs.ret_le k hk (hsp ▸ hkt)

/-- An instruction fetched by a running block keeps the invariant: it latches its fault, or keeps each clause by its effect. -/
theorem ExecNext.inv (h : ExecNext i s t) (hs : Inv s) (hrun : s.fault = none) (hpc : s.pc.toNat + 1 < memSize) : Inv t := by
  obtain ⟨f, -, hf, rfl⟩ | hsame := h.fault_cases
  · exact hs.setFault hf
  have ht : t.fault = none := hsame.trans hrun
  exact {
    mem_wf := h.mem_wf hs.mem_wf
    pc_le := h.toNat_pc_le hpc ht hs.top_le
    sp_lt := h.sp_lt hs.sp_lt
    ret_le := h.ret_le hs hpc
    fault_pc := fun f hf => by cases ht.symm.trans hf }

end

/-- Settles O14: the fetch and decode faults are latched at pc, and an executed instruction keeps every clause. -/
theorem stepKeepsInvariant : Obligations.StepKeepsInvariant := by
  unfold Obligations.StepKeepsInvariant
  intro s t hs h
  obtain ⟨hrun, ⟨-, rfl⟩ | ⟨-, -, rfl⟩ | ⟨hpc, i, -, he⟩⟩ := step_next_cases h
  · exact hs.setFault rfl
  · exact hs.setFault rfl
  · exact (exec_next_cases he).inv hs hrun hpc

/-- Settles O16: an accepted image ends inside memory, and the rest of the block is blank. -/
theorem constructedMeetsInvariant : Obligations.ConstructedMeetsInvariant := by
  unfold Obligations.ConstructedMeetsInvariant
  intro p img t h
  obtain ⟨hfit, rfl⟩ := construct_eq_next_iff.1 h
  exact {
    mem_wf := wf_loadImage img loadAddr [] Memory.wf_nil (by simp only [memSize, loadAddr] at *; omega)
    pc_le := show (BitVec.ofNat 16 loadAddr).toNat ≤ 0x10FE by decide
    sp_lt := Nat.succ_pos 15
    ret_le := fun k _ hk => absurd hk (Nat.not_lt_zero k)
    fault_pc := nofun }

/-- Settles O15: the state after reset is the block constructed from the empty image. -/
theorem resetMeetsInvariant : Obligations.ResetMeetsInvariant :=
  constructedMeetsInvariant ResetParams.zero [] State.reset (construct_eq_next_iff.2 ⟨Nat.zero_le _, rfl⟩)

end Sys2Proof.Machine
end

section
/-! PROOF. The call/return round trip (spec/40_control_flow.md R110) and the deeper stack of D8: O23 and O27. -/

namespace Sys2Proof.Machine

section
variable {s t : State} {k : Nat}

/-- An instruction leaves every entry below SP: a push writes at SP, and a pop writes none. -/
theorem ExecNext.keeps_entry {i : Instr} (h : ExecNext i s t) (hk : k < 16) (hsp : k < s.sp.val) :
    t.stack[k]'hk = s.stack[k]'hk := by
  obtain ⟨nnn, -, -, rfl⟩ | ⟨-, rfl⟩ | ⟨-, hstack⟩ := h.stack_cases
  · exact (State.getElem_push_stack s.advance _ k hk).trans (if_neg (Nat.ne_of_lt hsp))
  · rfl
  · simp only [hstack]

theorem step_keeps_entry (h : step s = .next t) (hk : k < 16) (hsp : k < s.sp.val) : t.stack[k]'hk = s.stack[k]'hk := by
  obtain ⟨-, ⟨-, rfl⟩ | ⟨-, -, rfl⟩ | ⟨-, i, -, he⟩⟩ := step_next_cases h
  · rfl
  · rfl
  · exact (exec_next_cases he).keeps_entry hk hsp

/-- While SP stays above entry k, the entry is kept. -/
theorem StepsAbove.keeps_entry (hk : k < 16) : ∀ (n : Nat) {s t : State}, StepsAbove k n s t → k < s.sp.val →
    t.stack[k]'hk = s.stack[k]'hk := by
  intro n
  induction n with
  | zero => rintro s _ rfl _; rfl
  | succ n ih =>
    rintro s t ⟨m, hstep, hm, hrest⟩ hsp
    exact (ih hrest hm).trans (step_keeps_entry hstep hk hsp)

end

/-- Settles O27: the call stores pc0 + 2 in its entry, every step keeps it, and the return pops it. -/
theorem callReturnRoundTrip : Obligations.CallReturnRoundTrip := by
  unfold Obligations.CallReturnRoundTrip
  intro s t u nnn n hs hcall hsteps hu
  have hk : s.sp.val < 16 := Nat.lt_succ_of_lt hs
  obtain ⟨t', hcall', -, hsp, hentry, -⟩ := callPushes.1 s nnn hs
  cases hcall'.symm.trans hcall
  obtain ⟨v, hret, hpc, hv, -⟩ := retPops.1 u s.sp.val hk hu
  refine ⟨v, hret, ?_, hv⟩
  calc v.pc = u.stack[s.sp.val]'hk := hpc
    _ = t.stack[s.sp.val]'hk := hsteps.keeps_entry hk n (hsp ▸ Nat.lt_succ_self _)
    _ = s.pc + 2 := (hentry s.sp.val hk).trans (if_pos rfl)

/-- Settles O23: a call with STACK_MAX_DEPTH = 16. -/
theorem callUnderDepth16 : Obligations.CallUnderDepth16 :=
  ⟨fun _ nnn h => callWith_pushes nnn (by decide) h, fun _ nnn h => callWith_raises nnn h.ge⟩

end Sys2Proof.Machine
end

section
/-! PROOF. What the display holds does not matter (spec/41_display.md R131, R138 to R140; spec/10_state.md R32): O32, O34, O35 and
O39. -/

namespace Sys2Proof.Machine

/-- Settles O32: each `00E0` ends with the same blank framebuffer and DIRTY true. -/
theorem clsIdempotent : Obligations.ClsIdempotent :=
  fun _ => ⟨_, _, rfl, rfl, rfl, rfl, fun _ _ => rfl, pixel_clearFb⟩

/-- Settles O35: a sprite of no rows covers no pixel and has no nonzero byte. -/
theorem drawOfHeightZero : Obligations.DrawOfHeightZero := by
  unfold Obligations.DrawOfHeightZero
  intro s x y
  obtain ⟨t, h, -, hpixel, -, hflag, hdirty, hpc, -⟩ := drwBlits.1 s x y 0x0#4 (.inl rfl)
  refine ⟨t, h, fun c r => hpixel c r ?_, hflag fun r hr => absurd hr (Nat.not_lt_zero r), hdirty, hpc⟩
  rintro ⟨row, -, hrow, -⟩
  exact Nat.not_lt_zero row hrow

/-! The blit (R137 to R139). -/

section
variable (m : Memory) (base cx cy : Nat) {n : Nat} (fb : Framebuffer)

/-- The flip of a blit does not depend on what the framebuffer held (R138). -/
theorem drawSprite_flips_eq (g : Framebuffer) (hn : n ≤ 15) :
    (drawSprite m base cx cy n g).2 = (drawSprite m base cx cy n fb).2 :=
  Bool.eq_iff_iff.2 ((drawSprite_flips_iff hn).trans (drawSprite_flips_iff hn).symm)

/-- The same blit twice negates each pixel of the sprite's footprint twice, and no other. -/
theorem drawSprite_twice_pixel (hn : n ≤ 15) (c : Fin fbW) (r : Fin fbH) :
    (drawSprite m base cx cy n (drawSprite m base cx cy n fb).1).1.pixel c r = fb.pixel c r := by
  by_cases h : SpriteCovers m base cx cy n c r
  · rw [drawSprite_pixel_of_covers hn h, drawSprite_pixel_of_covers hn h, Bool.not_not]
  · rw [drawSprite_pixel_of_not_covers hn h, drawSprite_pixel_of_not_covers hn h]

end

/-- A draw leaves memory, I and the registers but VF, so after it the same draw is the same blit, of the new framebuffer. -/
theorem exec_drw_after_draw {s : State} {x y : RegIdx} {n : Height} (d : Framebuffer × Bool) (hx : x ≠ vF) (hy : y ≠ vF)
    (h : n.toNat = 0 ∨ s.i.toNat + n.toNat ≤ memSize) : exec (.drw x y n) (finishDraw d s.advance) =
    .next (finishDraw (drawSprite s.mem s.i.toNat (s.getV x).toNat (s.getV y).toNat n.toNat d.1)
      (finishDraw d s.advance).advance) := by
  have hVx : (finishDraw d s.advance).getV x = s.getV x := sameVBut_finishDraw d s.advance x hx
  have hVy : (finishDraw d s.advance).getV y = s.getV y := sameVBut_finishDraw d s.advance y hy
  rw [← hVx, ← hVy]
  exact exec_drw_of_inRange x y h

/-- Settles O34: the two draws are the same blit twice, with the same flip. -/
theorem drawTwiceRestores : Obligations.DrawTwiceRestores := by
  unfold Obligations.DrawTwiceRestores
  intro s x y n hx hy h
  have hn : n.toNat ≤ 15 := Nat.le_of_lt_succ n.isLt
  refine ⟨_, _, exec_drw_of_inRange x y h, exec_drw_after_draw _ hx hy h, drawSprite_twice_pixel _ _ _ _ _ hn, ?_⟩
  rw [← vF, finishDraw_getV_vF, finishDraw_getV_vF]
  exact congrArg drawFlag (drawSprite_flips_eq _ _ _ _ _ _ hn)

/-! Noninterference: the same state with another display. -/

/-- `s` with the framebuffer `g` and DIRTY `d`. -/
def State.withDisplay (s : State) (g : Framebuffer) (d : Bool) : State := { s with fb := g, dirty := d }

/-- `r` is a next state that may differ from `t` in the display alone. -/
def NextUpToDisplay (t : State) (r : Result) : Prop := ∃ g d, r = .next (t.withDisplay g d)

section
variable {s t : State} (g : Framebuffer) (d : Bool)

theorem advance_skipIf_withDisplay (c : Bool) :
    (s.withDisplay g d).advance.skipIf c = (s.advance.skipIf c).withDisplay g d := by
  cases c <;> rfl

/-- Outside the display, the end of a draw depends on its flip alone. -/
theorem finishDraw_withDisplay {e e' : Framebuffer × Bool} (h : e'.2 = e.2) :
    finishDraw e' (s.withDisplay g d) = (finishDraw e s).withDisplay e'.1 true := by
  rw [finishDraw, h]
  rfl

theorem takeFault_withDisplay (f : Fault) :
    NextUpToDisplay { s with fault := some f } (takeFault f (s.withDisplay g d)) :=
  ⟨g, d, rfl⟩

theorem finishAlu_withDisplay {i : Instr} {x : RegIdx} {r : Option Byte} (h : finishAlu i x r s = .next t) :
    NextUpToDisplay t (finishAlu i x r (s.withDisplay g d)) := by
  obtain ⟨rfl, rfl⟩ | ⟨b, rfl, rfl⟩ := finishAlu_cases h
  · exact takeFault_withDisplay g d _
  · exact ⟨g, d, rfl⟩

theorem indexAddWith_withDisplay {rule : OverflowRule} {i : Instr} {k : Nat} (h : indexAddWith rule i k s = .next t) :
    NextUpToDisplay t (indexAddWith rule i k (s.withDisplay g d)) := by
  obtain ⟨hsum, rfl⟩ | ⟨w, hsum, rfl⟩ := indexAddWith_cases h
  · exact ⟨g, d, by simp only [indexAddWith, State.withDisplay, hsum, takeFault]⟩
  · exact ⟨g, d, by simp only [indexAddWith, State.withDisplay, hsum]; rfl⟩

/-- A draw blits into the other framebuffer, with the same flip. -/
theorem exec_drw_withDisplay {x y : RegIdx} {n : Height} (h : exec (.drw x y n) s = .next t) :
    NextUpToDisplay t (exec (.drw x y n) (s.withDisplay g d)) := by
  obtain ⟨-, hin⟩ | ⟨-, h0, hout⟩ := firstOutOfRange_cases s.i.toNat n.toNat
  · have hflips := drawSprite_flips_eq s.mem s.i.toNat (s.getV x).toNat (s.getV y).toNat s.fb g (Nat.le_of_lt_succ n.isLt)
    have hexec := exec_drw_of_inRange (s := s.withDisplay g d) x y hin
    cases (exec_drw_of_inRange x y hin).symm.trans h
    exact ⟨_, _, hexec.trans (congrArg Host.Outcome.next (finishDraw_withDisplay (s := s.advance) g d hflips))⟩
  · cases (exec_drw_of_outOfRange x y h0 hout).symm.trans h
    exact ⟨g, d, exec_drw_of_outOfRange x y h0 hout⟩

theorem exec_withDisplay {i : Instr} (h : exec i s = .next t) : NextUpToDisplay t (exec i (s.withDisplay g d)) := by
  cases i
  case cls => cases h; exact ⟨clearFb, true, rfl⟩
  case drw => exact exec_drw_withDisplay g d h
  case seImm | sneImm | seReg | sneReg =>
    cases h
    exact ⟨g, d, congrArg Host.Outcome.next (advance_skipIf_withDisplay g d _)⟩
  case ret =>
    obtain ⟨hsp, rfl⟩ | ⟨hsp, rfl⟩ := execRet_cases h
    · exact ⟨g, d, exec_ret_of_empty hsp⟩
    · exact ⟨g, d, exec_ret_of_ne_zero hsp.ne'⟩
  case call nnn =>
    obtain ⟨hsp, rfl⟩ | ⟨hsp, rfl⟩ := callWith_cases h
    · exact ⟨g, d, callWith_of_full nnn hsp⟩
    · exact ⟨g, d, callWith_of_lt nnn hsp⟩
  case addReg | subReg => exact finishAlu_withDisplay g d h
  case addILit | addIReg | ldF => exact indexAddWith_withDisplay g d h
  case store x =>
    obtain ⟨-, hin⟩ | ⟨-, h0, hout⟩ := firstOutOfRange_cases s.i.toNat x.toNat
    · cases (exec_store_of_inRange hin).symm.trans h
      exact ⟨g, d, exec_store_of_inRange hin⟩
    · cases (exec_store_of_outOfRange h0 hout).symm.trans h
      exact ⟨g, d, exec_store_of_outOfRange h0 hout⟩
  case load x =>
    obtain ⟨-, hin⟩ | ⟨-, h0, hout⟩ := firstOutOfRange_cases s.i.toNat x.toNat
    · cases (exec_load_of_inRange hin).symm.trans h
      exact ⟨g, d, exec_load_of_inRange hin⟩
    · cases (exec_load_of_outOfRange h0 hout).symm.trans h
      exact ⟨g, d, exec_load_of_outOfRange h0 hout⟩
  all_goals cases h; exact ⟨g, d, rfl⟩

theorem step_withDisplay (h : step s = .next t) : NextUpToDisplay t (step (s.withDisplay g d)) := by
  obtain ⟨hs, ⟨hpc, rfl⟩ | ⟨hpc, hd, rfl⟩ | ⟨hpc, i, hd, he⟩⟩ := step_next_cases h
  · exact ⟨g, d, step_of_fetch_outOfRange hs hpc⟩
  · exact ⟨g, d, step_of_unrecognized hs hpc hd⟩
  · exact step_of_decoded (s := s.withDisplay g d) hs hpc hd ▸ exec_withDisplay g d he

end

/-- A step answers a fault only when it is latched (R228). -/
theorem fault_of_step_fault {s : State} {f : Fault} (h : step s = .fault f) : s.fault = some f := by
  cases hs : s.fault with
  | some f' => cases (step_of_fault hs).symm.trans h; rfl
  | none =>
    obtain ⟨t, ht⟩ := step_answers_next hs
    cases ht.symm.trans h

/-- Settles O39: the step of the state with another display is the same step, up to the display; a latched fault is answered
whatever the display. -/
theorem displayIsNotRead : Obligations.DisplayIsNotRead := by
  unfold Obligations.DisplayIsNotRead
  refine fun s g d => ⟨fun t h => ?_, fun f h => ?_⟩
  · obtain ⟨g', d', hu⟩ := step_withDisplay g d h
    exact ⟨t.withDisplay g' d', hu, rfl, rfl, rfl, rfl, rfl, rfl, rfl, rfl⟩
  · have hs : s.fault = some f := fault_of_step_fault h
    exact step_of_fault (s := s.withDisplay g d) hs

end Sys2Proof.Machine
end

section
/-! PROOF. The draw of RAND (spec/42_alu.md R169): O47. -/

namespace Sys2Proof.Machine

/-- Settles O47: the byte written is the masked draw, and the draw is counted. -/
theorem rndMasksDraw : Obligations.RndMasksDraw := by
  unfold Obligations.RndMasksDraw
  intro s x nn
  have hother : SameVBut x s ((drawRand s.advance).2.setV x ((drawRand s.advance).1 &&& nn)) :=
    fun _ hy => State.getV_setV_of_ne _ _ hy
  exact ⟨_, rfl, State.getV_setV_same _ x _, rfl, rfl, hother, rfl, ⟨rfl, rfl⟩, ⟨fun _ _ => rfl, rfl⟩, fun _ => rfl, rfl⟩

end Sys2Proof.Machine
end
